-- ==== Sys2Proof/Word.lean ====
section
/-!
DEFINITION. The word types of the CORE (00_scope.md R7, R8): every register value, memory cell and
instruction byte is an unsigned 8-bit value; a register is named by a number 0..7.
-/

namespace Sys2Proof

/-- An unsigned 8-bit value: a register value, a memory cell or an instruction byte (R7, R20, R37). -/
abbrev Byte := BitVec 8

/-- A register number that has passed the index check: R0..R7 (10_state.md R20). -/
abbrev Reg := Fin 8

end Sys2Proof
end

