-- ==== Sys2Proof/Config.lean ====
section
/-!
DEFINITION. The implementation parameters of 00_scope.md R7 and the types they need. The two parameters a
test program could show wrong stand where a repair may mend them: `opcodeMap` in Decode.lean and
`Machine.stPcAdvance` in Machine/Move.lean. The launch parameters INIT_REGS and INIT_MEM are arguments of
`Machine.launch` (Machine/Loader.lean).
-/

namespace Sys2Proof

/-- The operation identifiers an opcode byte is decoded to: the fourteen instructions of 00_scope.md R3. -/
inductive Op where
  | hlt | ret
  | push | pop | prn | call | jmp | jeq | jne
  | ldi | st | add | mul | cmp
  deriving DecidableEq, Repr

/-- The four instruction formats of 30_encoding.md R71: no operand byte; one register operand; two register
operands; a register operand and an immediate. -/
inductive Format where
  | n | r | rr | ri
  deriving DecidableEq, Repr

/-- The parameter OPCODE_MAP of R7: one row per instruction, its opcode byte and its operation (30_encoding.md R75). -/
abbrev OpcodeMap := List (Byte × Op)

namespace Config

/-- MEMSIZE: the number of memory cells, at addresses 0..255 (R7, 10_state.md R37). -/
def memSize : Nat := 256

/-- NREG: the number of registers, indexed 0..7 (R7, 10_state.md R20). -/
def nReg : Nat := 8

/-- SP_RESET: the stack pointer's reset value (R7, 10_state.md R23, R41). -/
def spReset : Byte := 0xF4

/-- PC_RESET: the program counter's reset value (R7, 70_reset_and_hazards.md R241). -/
def pcReset : Nat := 0

/-- DESIGN CHOICE, unsafe (log entry 3): the value of R0..R6 in `State.reset`. The spec gives none: they are
the launch parameter INIT_REGS (10_state.md R41, decision D10), which `Machine.launch` takes as an argument. -/
def initReg : Byte := 0x00

/-- DESIGN CHOICE, unsafe (log entry 2): what a memory cell the list does not name reads as. The spec gives
none: such cells are the launch parameter INIT_MEM (10_state.md R41, decision D11), which `Machine.launch`
takes as an argument. -/
def unlisted : Byte := 0x00

end Config

end Sys2Proof
end

