-- ==== Sys2Proof/Machine/State.lean ====
section
/-!
DEFINITION. The architectural state of the CORE: the tuple at the head of 10_state.md, and nothing else ("Nothing
else is state"); the reasons a step can have no next state; and the state after reset.
-/

namespace Sys2Proof.Machine

/-- The causes of a fault record (10_state.md R31, 60_exceptions.md R210). -/
inductive Cause where
  /-- a register or memory index out of range (60_exceptions.md R211) -/
  | indexOutOfBounds
  /-- the ALU was given an operation identifier it does not have (60_exceptions.md R212) -/
  | unsupportedALUOperation
  deriving DecidableEq, Repr

/-- The info of a fault record (10_state.md R31): the offending index and its kind, or the operation identifier. -/
inductive FaultInfo where
  /-- a memory index of 256 or more -/
  | memory (addr : Nat)
  /-- a register index of 8 or more -/
  | register (idx : Nat)
  /-- an ALU operation identifier that is not ADD, MUL or CMP -/
  | aluOp (opid : Nat)
  deriving DecidableEq, Repr

/-- The fault record of 10_state.md R31: the cause, the pc of the faulting step, the info. -/
structure FaultRecord where
  cause : Cause
  fpc : Nat
  info : FaultInfo
  deriving DecidableEq, Repr

/-- The run state of 10_state.md R30. Only `running` has a next step. -/
inductive RunState where
  | running
  | halted
  | faulted (r : FaultRecord)
  deriving DecidableEq, Repr

/-- The comparison flags E, L and G (10_state.md R32), three separate bits (R35). -/
structure Flags where
  e : Bool
  l : Bool
  g : Bool
  deriving DecidableEq, Repr

/-- Memory as a list of cells, addresses strictly rising, no cell equal to `Config.unlisted`, which every address
that is not listed reads as (log entry 2). The 256 cells of 10_state.md R37. -/
abbrev Memory := List Host.Cell

/-- The state of the CORE (10_state.md, the tuple at its head). -/
structure State where
  /-- x[0..7]; x[7] is SP (R20, R23) -/
  regs : Vector Byte 8
  /-- the 256 memory cells (R37) -/
  mem : Memory
  /-- the program counter, an unbounded natural number (R26, R27) -/
  pc : Nat
  /-- E, L, G (R32) -/
  flags : Flags
  /-- Running, Halted or Faulted (R30) -/
  run : RunState
  /-- the PRN events, oldest first (R36, 00_scope.md R12) -/
  out : List Byte
  /-- the UnknownInstruction events, oldest first: address and byte (R36, 00_scope.md R12) -/
  diag : List (Nat × Byte)
  deriving DecidableEq, Repr

/-- Why the machine has no next step. The CORE's own fatal conditions are not here: they are the run state
`RunState.faulted`, a next state (60_exceptions.md R214; log entry 6). -/
inductive Fault where
  /-- Raised by `step` when the run state is Halted: "from `Halted` or `Faulted` there is no step" (40_dispatch.md
  R100). Safe: the CORE takes no step there either (log entry 5). -/
  | alreadyHalted
  /-- Raised by `step` when the run state is Faulted, with the record that ended the run (R100). Safe (log entry 5). -/
  | alreadyFaulted (r : FaultRecord)
  deriving DecidableEq, Repr

/-- Why an instruction has no meaning in the model. -/
inductive Refusal where
  /-- Raised by an arm of `exec` that has no meaning yet; no arm does. Safe: the model stops. -/
  | notModelled (mnemonic : String)
  deriving DecidableEq, Repr

/-- The machine right after construction, before any image is loaded (10_state.md R41, 70_reset_and_hazards.md
R240): SP = 0xF4, pc = 0, the flags false, Running, no event. R0..R6 and the memory are the launch with
INIT_REGS and INIT_MEM zero (log entries 2 and 3); `launch` (Machine/Loader.lean) gives every other launch. -/
def State.reset : State where
  regs := #v[Config.initReg, Config.initReg, Config.initReg, Config.initReg,
    Config.initReg, Config.initReg, Config.initReg, Config.spReset]
  mem := []
  pc := Config.pcReset
  flags := ⟨false, false, false⟩
  run := .running
  out := []
  diag := []

end Sys2Proof.Machine
end

