-- ==== Sys2Proof/Machine/Flags.lean ====
section
/-!
DEFINITION. The flag computation of the CORE, the comparator of CMP (41_alu.md R120, R123). No other instruction
writes a flag (10_state.md R33).
-/

namespace Sys2Proof.Machine

/-- The flag triple (a = b, a < b, a > b) of two unsigned bytes (41_alu.md R120). -/
def compareBytes (a b : Byte) : Flags where
  e := decide (a = b)
  l := decide (a.toNat < b.toNat)
  g := decide (b.toNat < a.toNat)

end Sys2Proof.Machine
end

