-- ==== Sys2Proof/Machine/Ops.lean ====
section
/-!
DEFINITION. The named operations over memory, registers, the program counter, the event sequences and the stack,
and the entry into a fault. There is no return from a fault (60_exceptions.md R215), so none is defined.
-/

namespace Sys2Proof.Machine

/-- What an instruction or a step answers. -/
abbrev Result := Host.Outcome State Fault Refusal

/-! Memory as data. -/

/-- The byte at an address: the first cell listed for it, `Config.unlisted` where none is. -/
def Memory.get : Memory → Nat → Byte
  | [], _ => Config.unlisted
  | (a, v) :: m, k => if k = a then v else Memory.get m k

/-- The memory with no cell listed for an address. -/
def Memory.remove (m : Memory) (k : Nat) : Memory := m.filter fun c => c.1 ≠ k

/-- The memory with a cell listed in its place by address. -/
def Memory.insert : Memory → Nat → Byte → Memory
  | [], k, v => [(k, v)]
  | (a, w) :: m, k, v =>
    if k < a then (k, v) :: (a, w) :: m
    else if k = a then (k, v) :: m
    else (a, w) :: Memory.insert m k v

/-- The memory with a byte written at an address; writing what an unlisted address reads as lists nothing. -/
def Memory.set (m : Memory) (k : Nat) (v : Byte) : Memory :=
  if v = Config.unlisted then m.remove k else m.insert k v

/-- The canonical form: addresses strictly rising and below 256, no cell equal to `Config.unlisted`. -/
abbrev Memory.wf (m : Memory) : Prop :=
  m.Pairwise (fun c d => c.1 < d.1) ∧ ∀ c ∈ m, c.1 < Config.memSize ∧ c.2 ≠ Config.unlisted

/-- Bytes written at consecutive addresses from `a`; a byte at an address that does not exist is not written. -/
def Memory.place (m : Memory) : Nat → List Byte → Memory
  | _, [] => m
  | a, b :: bs => Memory.place (if a < Config.memSize then m.set a b else m) (a + 1) bs

/-- The memory whose cells 0..n-1 are given by a function, the rest unlisted. -/
def Memory.ofFn (f : Nat → Byte) : Nat → Memory
  | 0 => []
  | n + 1 => (Memory.ofFn f n).set n (f n)

/-! The state's operations. -/

/-- `MemRead(addr, 1)` of 00_scope.md R10: the byte at an address 0..255, none (which raises IndexOutOfBounds) elsewhere. -/
def State.memRead (s : State) (addr : Nat) : Option Byte :=
  if addr < Config.memSize then some (s.mem.get addr) else none

/-- `MemRead` at a data address, a register value, which always exists (20_memory.md R52). -/
def State.load (s : State) (a : Byte) : Byte := s.mem.get a.toNat

/-- `MemWrite` at a data address, a register value, which always exists (20_memory.md R52). -/
def State.store (s : State) (a v : Byte) : State := { s with mem := s.mem.set a.toNat v }

/-- A read of `x[i]` (00_scope.md R9). -/
def State.reg (s : State) (i : Reg) : Byte := s.regs[i]

/-- A write of `x[i]` (00_scope.md R9, 10_state.md R22). -/
def State.setReg (s : State) (i : Reg) (v : Byte) : State := { s with regs := s.regs.set i v }

/-- The register number of the stack pointer (10_state.md R23; SP_INDEX of 00_scope.md R7). -/
def spIndex : Reg := 7

/-- SP is an alias of `x[7]` (10_state.md R23). -/
def State.sp (s : State) : Byte := s.reg spIndex

/-- A write of SP, modulo 256 (10_state.md R22, 20_memory.md R59). -/
def State.setSp (s : State) (v : Byte) : State := s.setReg spIndex v

/-- `pc <- target`. -/
def State.setPc (s : State) (target : Nat) : State := { s with pc := target }

/-- `pc <- pc + n`, never reduced modulo 256 (10_state.md R27). -/
def State.advance (s : State) (n : Nat) : State := s.setPc (s.pc + n)

/-- A write of the three flags. -/
def State.setFlags (s : State) (f : Flags) : State := { s with flags := f }

/-- A write of the run state. -/
def State.setRun (s : State) (r : RunState) : State := { s with run := r }

/-- `emit Print(v)` (00_scope.md R12). -/
def State.emitPrint (s : State) (v : Byte) : State := { s with out := s.out ++ [v] }

/-- `emit UnknownInstruction(pc, op)` (00_scope.md R12). -/
def State.emitUnknown (s : State) (op : Byte) : State := { s with diag := s.diag ++ [(s.pc, op)] }

/-! The stack (43_stack.md R161, R162). -/

/-- `Push(v)`: SP decrements, then the byte is written at the new SP. -/
def State.push (s : State) (v : Byte) : State :=
  let s1 := s.setSp (s.sp - 1)
  s1.store s1.sp v

/-- What `Pop()` returns: the byte at SP before the increment. -/
def State.popped (s : State) : Byte := s.load s.sp

/-- What `Pop()` does: SP increments; the cell is not cleared. -/
def State.pop (s : State) : State := s.setSp (s.sp + 1)

/-! Faults. -/

/-- The cause an info belongs to (10_state.md R31). -/
def FaultInfo.cause : FaultInfo → Cause
  | .memory _ => .indexOutOfBounds
  | .register _ => .indexOutOfBounds
  | .aluOp _ => .unsupportedALUOperation

/-- The code of a cause (60_exceptions.md R210, the spec's own numbers: decision D15). -/
def Cause.code : Cause → Nat
  | .indexOutOfBounds => 1
  | .unsupportedALUOperation => 2

/-- Taking a fault, the one entry every condition goes through: `run <- Faulted(cause, fpc, info)` with fpc the pc
of the step, and nothing else changes (60_exceptions.md R214, 00_scope.md R11). -/
def raise (info : FaultInfo) (s : State) : Result :=
  .next (s.setRun (.faulted { cause := info.cause, fpc := s.pc, info := info }))

end Sys2Proof.Machine
end

