-- ==== Sys2Proof/Machine/Operands.lean ====
section
/-!
DEFINITION. The one operand form with a check: a register operand (30_encoding.md R73). The others are an
immediate, used as it stands (R74), and the branch target, a register value (44_control.md R181).
-/

namespace Sys2Proof.Machine

/-- Check a register operand and go on with its register; an index of 8 or more raises IndexOutOfBounds and is never
reduced modulo 8 (10_state.md R21). -/
def withReg (rA : Byte) (s : State) (go : Reg → Result) : Result :=
  if h : rA.toNat < 8 then go ⟨rA.toNat, h⟩ else raise (.register rA.toNat) s

/-- Check two register operands, rA before rB (40_dispatch.md R104). -/
def withRegs (rA rB : Byte) (s : State) (go : Reg → Reg → Result) : Result :=
  withReg rA s fun a => withReg rB s fun b => go a b

/-- The target of a control transfer: a byte, zero-extended to the pc's width (44_control.md R181). -/
def target (v : Byte) : Nat := v.toNat

end Sys2Proof.Machine
end

