-- ==== Sys2Proof/Machine/Alu.lean ====
section
/-!
DEFINITION. The ALU and the instructions that use it: ADD, MUL and CMP (41_alu.md).
-/

namespace Sys2Proof.Machine

/-- The operation identifiers the ALU can be given. `other` is any that is none of its three (41_alu.md R124); no
opcode leads to it. DESIGN CHOICE, safe (log entry 9): the spec does not say what an identifier is, so the others
are numbered. -/
inductive AluOp where
  | add
  | mul
  | cmp
  | other (opid : Nat)
  deriving DecidableEq, Repr

/-- What the ALU returns (41_alu.md R120): a byte or a flag triple. -/
inductive AluResult where
  | value (v : Byte)
  | flags (f : Flags)
  deriving DecidableEq, Repr

/-- The ALU as a combinational function (41_alu.md R120, R125): arithmetic modulo 256, an unsigned comparison; the
identifier itself where the operation is unsupported (R124). -/
def alu (op : AluOp) (a b : Byte) : Except Nat AluResult :=
  match op with
  | .add => .ok (.value (a + b))
  | .mul => .ok (.value (a * b))
  | .cmp => .ok (.flags (compareBytes a b))
  | .other opid => .error opid

/-- An instruction of format RR that runs the ALU on x[rA] and x[rB]: a byte goes to x[rA], a flag triple to the flags,
an unsupported operation raises (41_alu.md R121..R124). -/
def aluInstr (op : AluOp) (rA rB : Byte) (s : State) : Result :=
  withRegs rA rB s fun a b =>
    match alu op (s.reg a) (s.reg b) with
    | .ok (.value v) => .next ((s.setReg a v).advance 3)
    | .ok (.flags f) => .next ((s.setFlags f).advance 3)
    | .error opid => raise (.aluOp opid) s

/-- ADD (41_alu.md R121). -/
def execAdd (rA rB : Byte) (s : State) : Result := aluInstr .add rA rB s

/-- MUL (41_alu.md R122). -/
def execMul (rA rB : Byte) (s : State) : Result := aluInstr .mul rA rB s

/-- CMP (41_alu.md R123). -/
def execCmp (rA rB : Byte) (s : State) : Result := aluInstr .cmp rA rB s

end Sys2Proof.Machine
end

