-- ==== Sys2Proof/Machine/Control.lean ====
section
/-!
DEFINITION. Control transfer and halt: CALL, RET, JMP, JEQ, JNE and HLT (44_control.md). Every target is absolute and
comes from a register or the stack (R180).
-/

namespace Sys2Proof.Machine

/-- CALL: the return address pc + 2 must be a memory index; it is pushed, then pc takes x[rA], read after the push
(44_control.md R182). -/
def execCall (rA : Byte) (s : State) : Result :=
  withReg rA s fun a =>
    if s.pc + 2 < Config.memSize then
      let s1 := s.push (BitVec.ofNat 8 (s.pc + 2))
      .next (s1.setPc (target (s1.reg a)))
    else raise (.memory (s.pc + 2)) s

/-- RET: pc takes the popped byte (44_control.md R183). -/
def execRet (s : State) : Result := .next (s.pop.setPc (target s.popped))

/-- JMP (44_control.md R184). -/
def execJmp (rA : Byte) (s : State) : Result :=
  withReg rA s fun a => .next (s.setPc (target (s.reg a)))

/-- A branch of format R: to x[rA] when the condition holds, else past the instruction. rA is checked either way
(40_dispatch.md R104). -/
def branch (cond : Bool) (rA : Byte) (s : State) : Result :=
  withReg rA s fun a => .next (if cond then s.setPc (target (s.reg a)) else s.advance 2)

/-- JEQ: branches when E is set (44_control.md R185). -/
def execJeq (rA : Byte) (s : State) : Result := branch s.flags.e rA s

/-- JNE: branches when E is clear (44_control.md R186). -/
def execJne (rA : Byte) (s : State) : Result := branch (!s.flags.e) rA s

/-- HLT: Running becomes Halted; pc keeps the address of the HLT byte (44_control.md R187). -/
def execHlt (s : State) : Result := .next (s.setRun .halted)

end Sys2Proof.Machine
end

