-- ==== Sys2Proof/Machine/Move.lean ====
section
/-!
DEFINITION. Load immediate, store and print: LDI, ST and PRN (42_load_store_io.md).
-/

namespace Sys2Proof.Machine

/-- The parameter ST_PC_ADVANCE (00_scope.md R7, 42_load_store_io.md R142): 3. The spec's own choice (decision D3; log
entry 7); 2 only for byte-stream parity with the reference. -/
def stPcAdvance : Nat := 3

/-- LDI: x[rA] takes the immediate as it stands (42_load_store_io.md R141). -/
def execLdi (rA imm : Byte) (s : State) : Result :=
  withReg rA s fun a => .next ((s.setReg a imm).advance 3)

/-- ST for a value of ST_PC_ADVANCE: the byte x[rB] goes to the cell x[rA] (42_load_store_io.md R142). -/
def storeInstr (pcAdvance : Nat) (rA rB : Byte) (s : State) : Result :=
  withRegs rA rB s fun a b => .next ((s.store (s.reg a) (s.reg b)).advance pcAdvance)

/-- ST (42_load_store_io.md R142). -/
def execSt (rA rB : Byte) (s : State) : Result := storeInstr stPcAdvance rA rB s

/-- PRN: the byte x[rA] is appended to the output events (42_load_store_io.md R143). -/
def execPrn (rA : Byte) (s : State) : Result :=
  withReg rA s fun a => .next ((s.emitPrint (s.reg a)).advance 2)

end Sys2Proof.Machine
end

