-- ==== Sys2Proof/Machine/Stack.lean ====
section
/-!
DEFINITION. PUSH and POP (43_stack.md). Their statements run in the order written, each seeing the writes before it
(00_scope.md R13), which decides what they do when rA names SP.
-/

namespace Sys2Proof.Machine

/-- PUSH: SP decrements, then x[rA], read after that write, goes to the cell at SP (43_stack.md R163). -/
def execPush (rA : Byte) (s : State) : Result :=
  withReg rA s fun a =>
    let s1 := s.setSp (s.sp - 1)
    .next ((s1.store s1.sp (s1.reg a)).advance 2)

/-- POP: x[rA] takes the byte at SP, then SP, read after that write, increments (43_stack.md R164). -/
def execPop (rA : Byte) (s : State) : Result :=
  withReg rA s fun a =>
    let s1 := s.setReg a s.popped
    .next (s1.pop.advance 2)

end Sys2Proof.Machine
end

