-- ==== Sys2Proof/Syntax.lean ====
section
/-!
DEFINITION. The instruction set as syntax: one constructor per row of spec/opcode_table.json, in the table's
order. `rA` and `rB` are whole operand bytes, 0..255 (30_encoding.md R73): an index of 8 or more is legal
syntax and fails only when the instruction executes.
-/

namespace Sys2Proof

/-- The fourteen instructions of 00_scope.md R3 with their operand bytes (30_encoding.md R71, R75). -/
inductive Instr where
  /-- HLT (44_control.md R187). -/
  | hlt
  /-- RET (44_control.md R183). -/
  | ret
  /-- PUSH rA (43_stack.md R163). -/
  | push (rA : Byte)
  /-- POP rA (43_stack.md R164). -/
  | pop (rA : Byte)
  /-- PRN rA (42_load_store_io.md R143). -/
  | prn (rA : Byte)
  /-- CALL rA (44_control.md R182). -/
  | call (rA : Byte)
  /-- JMP rA (44_control.md R184). -/
  | jmp (rA : Byte)
  /-- JEQ rA (44_control.md R185). -/
  | jeq (rA : Byte)
  /-- JNE rA (44_control.md R186). -/
  | jne (rA : Byte)
  /-- LDI rA, imm (42_load_store_io.md R141). -/
  | ldi (rA imm : Byte)
  /-- ST rA, rB (42_load_store_io.md R142). -/
  | st (rA rB : Byte)
  /-- ADD rA, rB (41_alu.md R121). -/
  | add (rA rB : Byte)
  /-- MUL rA, rB (41_alu.md R122). -/
  | mul (rA rB : Byte)
  /-- CMP rA, rB (41_alu.md R123). -/
  | cmp (rA rB : Byte)
  deriving DecidableEq, Repr

end Sys2Proof
end

