-- ==== Sys2Proof/Machine/Dispatch.lean ====
section
/-!
DEFINITION. One arm per instruction (40_dispatch.md R106, `exec`). `exec` runs an instruction whose bytes the step
has fetched; it makes the checks 3 and 4 of R104 and then its writes. The run state is checked by the step (R100).
-/

namespace Sys2Proof.Machine

def exec (i : Instr) (s : State) : Host.Outcome State Fault Refusal :=
  match i with
  | .hlt => Sys2Proof.Machine.execHlt s
  | .ret => Sys2Proof.Machine.execRet s
  | .push rA => Sys2Proof.Machine.execPush rA s
  | .pop rA => Sys2Proof.Machine.execPop rA s
  | .prn rA => Sys2Proof.Machine.execPrn rA s
  | .call rA => Sys2Proof.Machine.execCall rA s
  | .jmp rA => Sys2Proof.Machine.execJmp rA s
  | .jeq rA => Sys2Proof.Machine.execJeq rA s
  | .jne rA => Sys2Proof.Machine.execJne rA s
  | .ldi rA imm => Sys2Proof.Machine.execLdi rA imm s
  | .st rA rB => Sys2Proof.Machine.execSt rA rB s
  | .add rA rB => Sys2Proof.Machine.execAdd rA rB s
  | .mul rA rB => Sys2Proof.Machine.execMul rA rB s
  | .cmp rA rB => Sys2Proof.Machine.execCmp rA rB s

end Sys2Proof.Machine
end

