-- ==== Sys2Proof/WellFormed.lean ====
section
/-!
DEFINITION. What is well formed. Every term of `Instr` is: "Every operand byte value is accepted by decode"
(30_encoding.md R78), so instructions need no check. The checks are on the two inputs that are data: an
OPCODE_MAP (30_encoding.md R72, R75) and a program image (30_encoding.md R96).
-/

namespace Sys2Proof

/-- The fourteen operations, in the opcode table's order. -/
def Op.all : List Op :=
  [.hlt, .ret, .push, .pop, .prn, .call, .jmp, .jeq, .jne, .ldi, .st, .add, .mul, .cmp]

/-- An OPCODE_MAP may be used when no byte has two rows and each of the fourteen operations has exactly one. -/
def OpcodeMap.wellFormed (m : OpcodeMap) : Bool :=
  decide (m.map Prod.fst).Nodup && Op.all.all fun o => (m.map Prod.snd).count o == 1

/-- A program image fits the memory (R96: an image of more than 256 bytes is refused). -/
def imageFits (image : List Byte) : Bool :=
  decide (image.length ≤ Config.memSize)

end Sys2Proof
end

