-- ==== Sys2Proof/Decode.lean ====
section
/-!
DEFINITION. Decoding and encoding (30_encoding.md R70..R80, 40_dispatch.md R102, R103): OPCODE_MAP, the formats
and lengths, one decoder over any source of bytes, and the encoder. Decoding is total; what it cannot read it
rejects by name, an unmapped opcode byte (`Decoded.unknown`) or a byte that is not there (`Decoded.missing`).
-/

namespace Sys2Proof

/-- OPCODE_MAP, the table of 30_encoding.md R75. PRESUMED, unsafe (log entry 1): the spec takes these byte
values from general knowledge (the LS-8 teaching ISA: decision D1, K1), its source gives none. -/
def opcodeMap : OpcodeMap :=
  [(0x01, .hlt), (0x11, .ret), (0x45, .push), (0x46, .pop), (0x47, .prn), (0x50, .call), (0x54, .jmp)] ++
  [(0x55, .jeq), (0x56, .jne), (0x82, .ldi), (0x84, .st), (0xA0, .add), (0xA2, .mul), (0xA7, .cmp)]

/-- Look an opcode byte up by its whole value (R72). -/
def OpcodeMap.lookup : OpcodeMap → Byte → Option Op
  | [], _ => none
  | (b, o) :: m, op => if op = b then some o else OpcodeMap.lookup m op

/-- The opcode byte of an operation (R80); 0x00 for an operation the map lacks, which a well-formed map does not. -/
def OpcodeMap.byteOf : OpcodeMap → Op → Byte
  | [], _ => 0x00
  | (b, o') :: m, o => if o = o' then b else OpcodeMap.byteOf m o

/-- The format of each operation (R71, R75). -/
def Op.format : Op → Format
  | .hlt | .ret => .n
  | .push | .pop | .prn | .call | .jmp | .jeq | .jne => .r
  | .st | .add | .mul | .cmp => .rr
  | .ldi => .ri

/-- An instruction's length in bytes is fixed by its format: N = 1, R = 2, RR and RI = 3 (R74). -/
def Format.length : Format → Nat
  | .n => 1
  | .r => 2
  | .rr | .ri => 3

/-- The length in bytes of an operation's instructions (R74). -/
def Op.length (o : Op) : Nat := o.format.length

/-- The instruction of an operation and its operand bytes `b1` and `b2`; a format reads only the bytes it has (R71). -/
def Op.build (o : Op) (b1 b2 : Byte) : Instr :=
  match o with
  | .hlt => .hlt
  | .ret => .ret
  | .push => .push b1
  | .pop => .pop b1
  | .prn => .prn b1
  | .call => .call b1
  | .jmp => .jmp b1
  | .jeq => .jeq b1
  | .jne => .jne b1
  | .ldi => .ldi b1 b2
  | .st => .st b1 b2
  | .add => .add b1 b2
  | .mul => .mul b1 b2
  | .cmp => .cmp b1 b2

/-- The operation an instruction is of. -/
def Instr.op : Instr → Op
  | .hlt => .hlt
  | .ret => .ret
  | .push _ => .push
  | .pop _ => .pop
  | .prn _ => .prn
  | .call _ => .call
  | .jmp _ => .jmp
  | .jeq _ => .jeq
  | .jne _ => .jne
  | .ldi _ _ => .ldi
  | .st _ _ => .st
  | .add _ _ => .add
  | .mul _ _ => .mul
  | .cmp _ _ => .cmp

/-- The operand bytes of an instruction, in address order (R71, R80). -/
def Instr.operandBytes : Instr → List Byte
  | .hlt | .ret => []
  | .push a | .pop a | .prn a | .call a | .jmp a | .jeq a | .jne a => [a]
  | .ldi a imm => [a, imm]
  | .st a b | .add a b | .mul a b | .cmp a b => [a, b]

/-- The register operands of an instruction, rA before rB; LDI's immediate is none (40_dispatch.md R104). -/
def Instr.registerOperands : Instr → List Byte
  | .hlt | .ret => []
  | .push a | .pop a | .prn a | .call a | .jmp a | .jeq a | .jne a => [a]
  | .ldi a _ => [a]
  | .st a b | .add a b | .mul a b | .cmp a b => [a, b]

/-- The length of an instruction in bytes (R74). -/
def Instr.length (i : Instr) : Nat := i.op.length

/-- What decoding answers. -/
inductive Decoded where
  /-- an instruction -/
  | ok (i : Instr)
  /-- the opcode byte is not in OPCODE_MAP (40_dispatch.md R102, R105) -/
  | unknown (op : Byte)
  /-- byte `k` of the instruction could not be read, the first that could not (40_dispatch.md R101, R103) -/
  | missing (k : Nat)
  deriving DecidableEq, Repr

/-- The decoder, over any source of bytes (`read k` is the instruction's byte `k`, none where there is no such
byte): the opcode, then `b1` when the length is 2 or 3, then `b2` when it is 3, in that order (40_dispatch.md R103,
R106). An unmapped opcode reads no operand byte (R105). -/
def decodeFrom (m : OpcodeMap) (read : Nat → Option Byte) : Decoded :=
  match read 0 with
  | none => .missing 0
  | some op =>
    match m.lookup op with
    | none => .unknown op
    | some o =>
      match o.format with
      | .n => .ok (o.build 0 0)
      | .r =>
        match read 1 with
        | none => .missing 1
        | some b1 => .ok (o.build b1 0)
      | .rr | .ri =>
        match read 1 with
        | none => .missing 1
        | some b1 =>
          match read 2 with
          | none => .missing 2
          | some b2 => .ok (o.build b1 b2)

/-- Decode the instruction at the front of a list of bytes, under an OPCODE_MAP; bytes beyond it are ignored. -/
def decodeWith (m : OpcodeMap) (bytes : List Byte) : Decoded :=
  decodeFrom m fun k => bytes[k]?

/-- Decode under the default OPCODE_MAP. -/
def decode (bytes : List Byte) : Decoded := decodeWith opcodeMap bytes

/-- Encode under an OPCODE_MAP: the opcode byte, then the operand bytes (R80). -/
def encodeWith (m : OpcodeMap) (i : Instr) : List Byte := m.byteOf i.op :: i.operandBytes

/-- Encode under the default OPCODE_MAP. -/
def encode (i : Instr) : List Byte := encodeWith opcodeMap i

/-- The longest instruction's bytes of a word numbered as the opcode table numbers it: byte 0, at the lowest address,
is bits 7..0; the bits from `nbits` up are 0. -/
def tableBytes (nbits w : Nat) : List Byte :=
  [BitVec.ofNat 8 (w % 2 ^ nbits), BitVec.ofNat 8 (w % 2 ^ nbits / 2 ^ 8), BitVec.ofNat 8 (w % 2 ^ nbits / 2 ^ 16)]

/-- The instruction the decoder reads from a word of spec/opcode_table.json's numbering, none where it refuses it. -/
def decodeTableWord (nbits w : Nat) : Option Instr :=
  match decode (tableBytes nbits w) with
  | .ok i => some i
  | .unknown _ => none
  | .missing _ => none

end Sys2Proof
end

