-- ==== Sys2Proof/Machine/Fetch.lean ====
section
/-!
DEFINITION. What the step does around an instruction: the fetch (40_dispatch.md R101..R103), the recovery from an
unmapped opcode (R105), and the fetch's own fault.
-/

namespace Sys2Proof.Machine

/-- Fetch and decode at pc: byte `k` of the instruction is `MemRead(pc + k, 1)` (40_dispatch.md R101..R103). Reads come
before every write of the step (20_memory.md R63). -/
def fetch (s : State) : Decoded := decodeFrom opcodeMap fun k => s.memRead (s.pc + k)

/-- UnknownInstruction recovery: the diagnostic event, pc past the one byte, and nothing else (40_dispatch.md R105). -/
def unknownInstruction (op : Byte) (s : State) : Result := .next ((s.emitUnknown op).advance 1)

/-- The fault of a fetch whose byte `k` lies at no address: memory index pc + k (40_dispatch.md R101, R103). -/
def fetchFault (k : Nat) (s : State) : Result := raise (.memory (s.pc + k)) s

/-- The state with bytes placed in memory from pc on, where the next fetch reads them. -/
def placeAtPc (bytes : List Byte) (s : State) : State := { s with mem := s.mem.place s.pc bytes }

end Sys2Proof.Machine
end

