-- ==== Sys2Proof/Machine/Step.lean ====
section
/-!
DEFINITION. The step of the CORE (40_dispatch.md R106): one instruction or one UnknownInstruction recovery, one
transition. Where the run state is not Running there is no step, and the host's fault says why (R100; log entry 5).
-/

namespace Sys2Proof.Machine

/-- One step (40_dispatch.md R100, R106). -/
def step (s : State) : Host.Outcome State Fault Refusal :=
  match s.run with
  | .halted => .fault .alreadyHalted
  | .faulted r => .fault (.alreadyFaulted r)
  | .running =>
    match fetch s with
    | .ok i => exec i s
    | .unknown op => unknownInstruction op s
    | .missing k => fetchFault k s

/-- The state with an opcode-table word stored where `step` fetches its next instruction: at pc, lowest byte first,
zeros up to three bytes. Only memory changes. It stands for the loader's write of a program (log entry 4). -/
def State.withFetchWord (s : State) (nbits w : Nat) : State := placeAtPc (tableBytes nbits w) s

end Sys2Proof.Machine
end

