-- ==== Sys2Proof/Machine/Render.lean ====
section
/-!
DEFINITION. The text the host prints for a Print event (42_load_store_io.md R144). The CORE's own output is the byte.
-/

namespace Sys2Proof.Machine

/-- One line: `hex val: `, the byte in lowercase hexadecimal without leading zeros, a tab, `dec val: `, the byte in
decimal, a newline (42_load_store_io.md R144; no padding is the spec's own choice, decision D14). -/
def renderPrint (v : Byte) : List Char :=
  "hex val: ".toList ++ Nat.toDigits 16 v.toNat ++ ['\t'] ++ "dec val: ".toList ++ Nat.toDigits 10 v.toNat ++ ['\n']

end Sys2Proof.Machine
end

