-- ==== Sys2Proof/Machine/Loader.lean ====
section
/-!
DEFINITION. The launch: construction, then the load of a program image, then the first step (70_reset_and_hazards.md
R240), for every INIT_REGS, INIT_MEM and image; and the image's text format (30_encoding.md R95, R96), which the
scope file leaves to the loader but the spec transcribes.
-/

namespace Sys2Proof.Machine

/-- The register file at launch: R0..R6 from INIT_REGS, R7 = SP_RESET (10_state.md R41). -/
def launchRegs (initRegs : Fin 7 → Byte) : Vector Byte 8 :=
  #v[initRegs 0, initRegs 1, initRegs 2, initRegs 3, initRegs 4, initRegs 5, initRegs 6, Config.spReset]

/-- The memory at launch: INIT_MEM, then the image over cells 0..n-1 (10_state.md R41, 30_encoding.md R95). -/
def launchMem (initMem : Nat → Byte) (image : List Byte) : Memory :=
  (Memory.ofFn initMem Config.memSize).place 0 image

/-- The state in which the first step is taken, for a launch with INIT_REGS, INIT_MEM and an image; none where the
loader refuses the image and the CORE takes no step (70_reset_and_hazards.md R240, 30_encoding.md R96). -/
def launch (initRegs : Fin 7 → Byte) (initMem : Nat → Byte) (image : List Byte) : Option State :=
  if imageFits image then
    some { State.reset with regs := launchRegs initRegs, mem := launchMem initMem image }
  else none

/-! The text of an image (30_encoding.md R95, R96). -/

/-- Why the loader refuses an image; the CORE then takes no step (60_exceptions.md R224). -/
inductive LoadError where
  /-- the file is absent (60_exceptions.md R224) -/
  | programNotFound
  /-- a line, counted from 0, is neither blank, nor a comment, nor a literal (30_encoding.md R96) -/
  | malformedLine (line : Nat)
  /-- more than 256 bytes (30_encoding.md R96) -/
  | tooLong (bytes : Nat)
  deriving DecidableEq, Repr

/-- What one line of an image gives. -/
inductive LineResult where
  | ignored
  | byte (b : Byte)
  | malformed
  deriving DecidableEq, Repr

/-- The lines of a text. -/
def splitLines : List Char → List (List Char)
  | [] => [[]]
  | c :: cs =>
    if c = '\n' then [] :: splitLines cs
    else
      match splitLines cs with
      | [] => [[c]]
      | l :: ls => (c :: l) :: ls

/-- Whether a character is a binary digit. -/
def isBit (c : Char) : Bool := c == '0' || c == '1'

/-- The value of binary digits, the most significant first (00_scope.md R8). -/
def bitsValue (cs : List Char) : Nat := cs.foldl (fun n c => 2 * n + if c = '1' then 1 else 0) 0

/-- Whether what follows a literal ends it: the end of the line, white space or a comment (30_encoding.md R96). -/
def endsLiteral : List Char → Bool
  | [] => true
  | c :: _ => c.isWhitespace || c == '#'

/-- Read one line: blank and comment lines are ignored, eight binary digits are a byte, anything else is malformed.
White space before a literal is ignored (30_encoding.md R95, R96; log entry 8). -/
def parseLine (line : List Char) : LineResult :=
  match line.dropWhile Char.isWhitespace with
  | [] => .ignored
  | c :: cs =>
    if c = '#' then .ignored
    else
      let digits := (c :: cs).take 8
      if digits.length == 8 && digits.all isBit && endsLiteral ((c :: cs).drop 8) then
        .byte (BitVec.ofNat 8 (bitsValue digits))
      else .malformed

/-- Read lines in order, `n` being the number of the first. -/
def parseLines : Nat → List (List Char) → Except LoadError (List Byte)
  | _, [] => .ok []
  | n, l :: ls =>
    match parseLine l with
    | .malformed => .error (.malformedLine n)
    | .ignored => parseLines (n + 1) ls
    | .byte b =>
      match parseLines (n + 1) ls with
      | .error e => .error e
      | .ok bs => .ok (b :: bs)

/-- A byte as the image writes it: eight binary digits, bit 7 first (30_encoding.md R95, 00_scope.md R8). -/
def literal (b : Byte) : List Char :=
  [7, 6, 5, 4, 3, 2, 1, 0].map fun k => if b.getLsbD k then '1' else '0'

/-- An image file of bytes, one literal a line (30_encoding.md R95). -/
def imageText : List Byte → List Char
  | [] => []
  | b :: bs => literal b ++ '\n' :: imageText bs

/-- Read an image file, absent where there is no text. -/
def parseImage (text : Option (List Char)) : Except LoadError (List Byte) :=
  match text with
  | none => .error .programNotFound
  | some cs =>
    match parseLines 0 (splitLines cs) with
    | .error e => .error e
    | .ok bs => if imageFits bs then .ok bs else .error (.tooLong bs.length)

end Sys2Proof.Machine
end

