-- ==== Sys2Proof/Safety.lean ====
section
/-!
DEFINITION. What claims are stated in: the invariant of the CORE's states, the ends of a run (40_dispatch.md R109),
the operand fetch of an instruction, and the renaming of registers R0..R6.
-/

namespace Sys2Proof.Machine

/-- A fault record the CORE can hold (10_state.md R31): IndexOutOfBounds with a memory index of 256 or more or an
operand byte of 8 or more. No record has the cause UnsupportedALUOperation: no opcode reaches it (41_alu.md R124). -/
def FaultRecord.wf (r : FaultRecord) : Bool :=
  match r.cause, r.info with
  | .indexOutOfBounds, .memory a => decide (Config.memSize ≤ a)
  | .indexOutOfBounds, .register i => decide (8 ≤ i) && decide (i < 256)
  | .indexOutOfBounds, .aluOp _ => false
  | .unsupportedALUOperation, _ => false

/-- A run state that agrees with the pc: a fault record is one the CORE can hold, and its fpc is the pc, which the
faulting step left as it was (60_exceptions.md R214). -/
def RunState.wf (run : RunState) (pc : Nat) : Bool :=
  match run with
  | .running => true
  | .halted => true
  | .faulted r => r.wf && decide (r.fpc = pc)

/-- At most one flag is true: none before the first compare, one after it (10_state.md R32, R33). -/
abbrev Flags.exclusive (f : Flags) : Prop :=
  ¬(f.e = true ∧ f.l = true) ∧ ¬(f.e = true ∧ f.g = true) ∧ ¬(f.l = true ∧ f.g = true)

/-- The invariant of the CORE: memory in its canonical form; pc at most 256; the flags mutually exclusive; the run state
in order; every diagnostic names a memory address and a byte that is not in OPCODE_MAP. -/
abbrev State.Inv (s : State) : Prop :=
  s.mem.wf ∧ s.pc ≤ Config.memSize ∧ s.flags.exclusive ∧ s.run.wf s.pc = true ∧
    ∀ d ∈ s.diag, d.1 < Config.memSize ∧ opcodeMap.lookup d.2 = none

/-- `n` steps, stopping where there is no step. -/
def stepN : Nat → State → Result
  | 0, s => .next s
  | n + 1, s =>
    match step s with
    | .next t => stepN n t
    | .fault f => .fault f
    | .refused r => .refused r

/-- The successful end of a run: some number of steps reach Halted (40_dispatch.md R109). -/
def EndsHalted (s : State) : Prop := ∃ n t, stepN n s = .next t ∧ t.run = .halted

/-- The failed end of a run: some number of steps reach Faulted (40_dispatch.md R109). -/
def EndsFaulted (s : State) : Prop := ∃ n t r, stepN n s = .next t ∧ t.run = .faulted r

/-- A run that never ends (40_dispatch.md R107): every number of steps leaves the CORE Running. -/
def RunsForever (s : State) : Prop := ∀ n, ∃ t, stepN n s = .next t ∧ t.run = .running

/-- The state of a step that raised IndexOutOfBounds: `run` alone differs (60_exceptions.md R214). -/
def State.faultedWith (s : State) (info : FaultInfo) : State :=
  { s with run := .faulted ⟨.indexOutOfBounds, s.pc, info⟩ }

/-- The registers an instruction reads (10_state.md R25, the column "reads"). -/
def readsReg (i : Instr) (r : Reg) : Prop :=
  match i with
  | .hlt => False
  | .ret => r = spIndex
  | .push a => r = spIndex ∨ r.val = a.toNat
  | .pop _ => r = spIndex
  | .prn a => r.val = a.toNat
  | .call a => r = spIndex ∨ r.val = a.toNat
  | .jmp a => r.val = a.toNat
  | .jeq a => r.val = a.toNat
  | .jne a => r.val = a.toNat
  | .ldi _ _ => False
  | .st a b => r.val = a.toNat ∨ r.val = b.toNat
  | .add a b => r.val = a.toNat ∨ r.val = b.toNat
  | .mul a b => r.val = a.toNat ∨ r.val = b.toNat
  | .cmp a b => r.val = a.toNat ∨ r.val = b.toNat

/-- The registers an instruction writes (10_state.md R25, the column "writes"). -/
def writesReg (i : Instr) (r : Reg) : Prop :=
  match i with
  | .hlt => False
  | .ret => r = spIndex
  | .push _ => r = spIndex
  | .pop a => r.val = a.toNat ∨ r = spIndex
  | .prn _ => False
  | .call _ => r = spIndex
  | .jmp _ => False
  | .jeq _ => False
  | .jne _ => False
  | .ldi a _ => r.val = a.toNat
  | .st _ _ => False
  | .add a _ => r.val = a.toNat
  | .mul a _ => r.val = a.toNat
  | .cmp _ _ => False

/-- The address an instruction stores to (20_memory.md R51): x[rA] for ST, SP after its decrement for PUSH and CALL. -/
def storesAt (i : Instr) (s : State) (addr : Nat) : Prop :=
  match i with
  | .st a _ => ∃ h : a.toNat < 8, addr = (s.reg ⟨a.toNat, h⟩).toNat
  | .push _ => addr = (s.sp - 1).toNat
  | .call _ => addr = (s.sp - 1).toNat
  | .hlt => False
  | .ret => False
  | .pop _ => False
  | .prn _ => False
  | .jmp _ => False
  | .jeq _ => False
  | .jne _ => False
  | .ldi _ _ => False
  | .add _ _ => False
  | .mul _ _ => False
  | .cmp _ _ => False

/-- The address an instruction reads as data (20_memory.md R51): SP before its increment for POP and RET. -/
def loadsFrom (i : Instr) (s : State) (addr : Nat) : Prop :=
  match i with
  | .ret => addr = s.sp.toNat
  | .pop _ => addr = s.sp.toNat
  | .hlt => False
  | .push _ => False
  | .prn _ => False
  | .call _ => False
  | .jmp _ => False
  | .jeq _ => False
  | .jne _ => False
  | .ldi _ _ => False
  | .st _ _ => False
  | .add _ _ => False
  | .mul _ _ => False
  | .cmp _ _ => False

/-- At pc stands the opcode byte of an operation, under the default OPCODE_MAP. -/
def opcodeAtPc (o : Op) (s : State) : Prop :=
  ∃ op, s.memRead s.pc = some op ∧ opcodeMap.lookup op = some o

/-- The fault of a step that cannot fetch an operand byte of an operation: of the operand bytes 1..length-1, byte `k` is
the first that lies at 256 or above (40_dispatch.md R103, R104). -/
def OperandFetchFaults (o : Op) : Prop :=
  ∀ (s : State) (k : Nat), s.run = .running → opcodeAtPc o s →
    1 ≤ k → k < o.length → s.pc + k = Config.memSize →
    step s = .next (s.faultedWith (.memory (s.pc + k)))

/-- A byte `v` stands at pc and is what the step from a Running state takes as its opcode: without a row in OPCODE_MAP it
is an unknown instruction (40_dispatch.md R105); with one, the step runs an instruction of its operation whose operand
bytes are those that stand in memory after it, or raises where they run past 255 (R103). -/
def StepTakesOpcode (t : State) (v : Byte) : Prop :=
  t.memRead t.pc = some v ∧
  (opcodeMap.lookup v = none → step t = .next { t with diag := t.diag ++ [(t.pc, v)], pc := t.pc + 1 }) ∧
  ∀ o, opcodeMap.lookup v = some o →
    (t.pc + o.length ≤ 256 → ∃ i, i.op = o ∧
      (∀ k, k + 1 < o.length → t.memRead (t.pc + 1 + k) = i.operandBytes[k]?) ∧ step t = exec i t) ∧
    (256 < t.pc + o.length → step t = .next (t.faultedWith (.memory 256)))

/-- What a line of a program image holds, said of its characters (30_encoding.md R95, R96): nothing where it is blank or a
comment, a byte where its literal is followed by the end of the line, white space or `#`. Which characters are white
space is log entry 8. -/
def LineHolds (line : List Char) : Option Byte → Prop
  | none => ∃ ws rest, line = ws ++ rest ∧ (∀ c ∈ ws, c.isWhitespace = true) ∧ ∀ c, rest.head? = some c → c = '#'
  | some b => ∃ ws rest, line = ws ++ literal b ++ rest ∧ (∀ c ∈ ws, c.isWhitespace = true) ∧
      ∀ c, rest.head? = some c → c.isWhitespace = true ∨ c = '#'

/-- Under every OPCODE_MAP with a row for the operation, its opcode byte followed by the operand bytes of an instruction
of it decodes to that instruction, whatever follows: the instruction's format (30_encoding.md R71), apart from the
byte value the map gives it. -/
def HasFormat (i : Instr) (operands : List Byte) : Prop :=
  ∀ (m : OpcodeMap) (op : Byte) (rest : List Byte), m.lookup op = some i.op →
    decodeWith m (op :: (operands ++ rest)) = .ok i

/-- An operand byte under a renaming of the registers; a byte that names no register stays. -/
def renameByte (σ : Equiv.Perm Reg) (b : Byte) : Byte :=
  if h : b.toNat < 8 then BitVec.ofNat 8 (σ ⟨b.toNat, h⟩).val else b

/-- An instruction under a renaming of the registers. -/
def renameInstr (σ : Equiv.Perm Reg) : Instr → Instr
  | .hlt => .hlt
  | .ret => .ret
  | .push a => .push (renameByte σ a)
  | .pop a => .pop (renameByte σ a)
  | .prn a => .prn (renameByte σ a)
  | .call a => .call (renameByte σ a)
  | .jmp a => .jmp (renameByte σ a)
  | .jeq a => .jeq (renameByte σ a)
  | .jne a => .jne (renameByte σ a)
  | .ldi a imm => .ldi (renameByte σ a) imm
  | .st a b => .st (renameByte σ a) (renameByte σ b)
  | .add a b => .add (renameByte σ a) (renameByte σ b)
  | .mul a b => .mul (renameByte σ a) (renameByte σ b)
  | .cmp a b => .cmp (renameByte σ a) (renameByte σ b)

/-- A state with the values of its registers renamed: register `σ r` holds what `r` held. -/
def renameState (σ : Equiv.Perm Reg) (s : State) : State :=
  { s with regs := Vector.ofFn fun r => s.reg (σ.symm r) }

end Sys2Proof.Machine
end

