-- ==== Sys2Proof/Certificates/Slice0/Obligations.lean ====
section
/-!
DEFINITION. The statements of the model, for the provers. Each docstring names the rule of spec/ it formalises, and
the spec's own decision (D<n>) or the log entry where a clause rests on one.
-/

open Sys2Proof Sys2Proof.Machine

/-! Encoding. -/

/-- 30_encoding.md R80 against R72: under every well-formed OPCODE_MAP, whatever its byte values, the encoding of every
instruction, with every value of every operand byte and with any bytes after it, decodes to it. -/
def Obligations.DecodeReadsBackEveryEncoding : Prop :=
  ∀ (m : OpcodeMap) (i : Instr) (rest : List Byte), m.wellFormed = true →
    decodeWith m (encodeWith m i ++ rest) = .ok i

/-- The other direction: bytes that decode to an instruction begin with its encoding, so no two encodings stand for one
instruction (30_encoding.md R78). -/
def Obligations.DecodedBytesBeginWithTheEncoding : Prop :=
  ∀ (m : OpcodeMap) (i : Instr) (bytes : List Byte), m.wellFormed = true →
    decodeWith m bytes = .ok i → ∃ rest, bytes = encodeWith m i ++ rest

/-- Words written out from 30_encoding.md R75, R80 and the vectors of 95_test_vectors.md, one for each row of the opcode
table. The byte values are the spec's general knowledge (K1, log entry 1). -/
def Obligations.WordsOfTheOpcodeTableDecode : Prop :=
  decode [0x01] = .ok .hlt ∧ decode [0x11] = .ok .ret ∧
  decode [0x45, 0x07] = .ok (.push 7) ∧ decode [0x46, 0x06] = .ok (.pop 6) ∧
  decode [0x47, 0x00] = .ok (.prn 0) ∧ decode [0x50, 0x01] = .ok (.call 1) ∧
  decode [0x54, 0x03] = .ok (.jmp 3) ∧ decode [0x55, 0x09] = .ok (.jeq 9) ∧
  decode [0x56, 0x03] = .ok (.jne 3) ∧ decode [0x82, 0x00, 0x08] = .ok (.ldi 0 8) ∧
  decode [0x84, 0x05, 0x00] = .ok (.st 5 0) ∧ decode [0xA0, 0x02, 0x03] = .ok (.add 2 3) ∧
  decode [0xA2, 0x00, 0x01] = .ok (.mul 0 1) ∧ decode [0xA7, 0x02, 0x03] = .ok (.cmp 2 3)

/-- 30_encoding.md R77 under the default map (K1, log entry 1): a byte that is none of the fourteen is refused by name,
whatever follows it, one of the fourteen never is, and the unmapped bytes are 242. -/
def Obligations.UnmappedOpcodesAreRefusedByName : Prop :=
  (∀ (op : Byte) (rest : List Byte),
    decode (op :: rest) = .unknown op ↔
      op ∉ [0x01, 0x11, 0x45, 0x46, 0x47, 0x50, 0x54, 0x55, 0x56, 0x82, 0x84, 0xA0, 0xA2, 0xA7]) ∧
  ((List.range 256).filter fun n => opcodeMap.lookup (BitVec.ofNat 8 n) = none).length = 242

/-- 30_encoding.md R72: the opcode byte alone selects the operation, by a look-up of its whole value. A byte without a row
is the unknown instruction whatever follows; a byte with one gives an instruction of its operation whatever
follows, unless the operand bytes run out. -/
def Obligations.OpcodeByteAloneSelectsTheOperation : Prop :=
  ∀ (m : OpcodeMap) (op : Byte) (operands : List Byte),
    (m.lookup op = none → decodeWith m (op :: operands) = .unknown op) ∧
    (∀ o, m.lookup op = some o →
      (o.length ≤ operands.length + 1 → ∃ i, decodeWith m (op :: operands) = .ok i ∧ i.op = o) ∧
      (operands.length + 1 < o.length → decodeWith m (op :: operands) = .missing (operands.length + 1)))

/-! The step. -/

/-- 40_dispatch.md R106: where the bytes at pc decode to an instruction, the step of a Running state is that instruction's
meaning in that state, with nothing around it. -/
def Obligations.StepRunsTheDecodedInstruction : Prop :=
  ∀ (s : State) (i : Instr) (bytes : List Byte), s.run = .running → decode bytes = .ok i →
    (∀ k, k < i.length → s.memRead (s.pc + k) = bytes[k]?) → step s = exec i s

/-- 40_dispatch.md R101 (decision D5): an opcode fetch at 256 or above raises IndexOutOfBounds with the fetch address, and
the address is not reduced modulo 256. -/
def Obligations.OpcodeFetchPastMemoryFaults : Prop :=
  ∀ s : State, s.run = .running → 256 ≤ s.pc → step s = .next (s.faultedWith (.memory s.pc))

/-- 40_dispatch.md R103: the operand bytes are read at pc + 1 and, for length 3, pc + 2, and are the instruction's operands; a
read at 256 or above, the first in address order, raises IndexOutOfBounds with that address and fpc = pc. -/
def Obligations.OperandBytesAreFetchedInOrder : Prop :=
  ∀ o : Op,
    (∀ (s : State) (b1 b2 : Byte), s.run = .running → opcodeAtPc o s →
      (2 ≤ o.length → s.memRead (s.pc + 1) = some b1) → (o.length = 3 → s.memRead (s.pc + 2) = some b2) →
      ∃ i, i.op = o ∧ i.operandBytes = [b1, b2].take (o.length - 1) ∧ step s = exec i s) ∧
    OperandFetchFaults o

/-- 40_dispatch.md R105 (decision D13): an unmapped opcode byte emits the diagnostic and advances pc by one, and nothing
else changes. -/
def Obligations.UnknownInstructionAdvancesByOne : Prop :=
  ∀ (s : State) (op : Byte), s.run = .running → s.memRead s.pc = some op → opcodeMap.lookup op = none →
    step s = .next { s with diag := s.diag ++ [(s.pc, op)], pc := s.pc + 1 }

/-- 40_dispatch.md R100: a step exists exactly when the run state is Running, and then its successor is the only one; each
step is one instruction, one UnknownInstruction recovery, or the fault of its fetch. -/
def Obligations.StepExistsExactlyWhenRunning : Prop :=
  (∀ s : State, (∃! t, step s = .next t) ↔ s.run = .running) ∧
  (∀ s t : State, step s = .next t →
    (∃ i, fetch s = .ok i ∧ exec i s = .next t) ∨
    (∃ op, fetch s = .unknown op ∧ t = { s with diag := s.diag ++ [(s.pc, op)], pc := s.pc + 1 }) ∨
    (∃ k, fetch s = .missing k ∧ t = s.faultedWith (.memory (s.pc + k))))

/-! Faults. -/

/-- 60_exceptions.md R214, 40_dispatch.md R104 (decisions D6, D7): a step that ends in Faulted leaves everything but the run
state as it was, its record's fpc is the pc, and its record is IndexOutOfBounds with an index out of range. -/
def Obligations.FaultingStepChangesOnlyTheRunState : Prop :=
  ∀ (s t : State) (r : FaultRecord), step s = .next t → t.run = .faulted r →
    t = { s with run := .faulted r } ∧ r.fpc = s.pc ∧ r.wf = true

/-- 40_dispatch.md R104, 60_exceptions.md R211, R213 (decisions D8, D21): the first register operand of 8 or more, rA before
rB, is the one every instruction raises, whatever else the instruction would do (a branch not taken, a CALL at 0xFE). -/
def Obligations.FirstBadRegisterOperandIsRaised : Prop :=
  ∀ (i : Instr) (s : State) (b : Byte), i.registerOperands.find? (fun x => decide (8 ≤ x.toNat)) = some b →
    exec i s = .next (s.faultedWith (.register b.toNat))

/-- 41_alu.md R124, 60_exceptions.md R212 (decision D26): an unsupported ALU operation raises UnsupportedALUOperation with its
identifier, and no step of the CORE does. That identifiers are numbers is the model's choice (log entry 9). -/
def Obligations.UnsupportedOperationIsUnreachable : Prop :=
  (∀ (s : State) (opid : Nat) (rA rB : Byte), rA.toNat < 8 → rB.toNat < 8 →
    aluInstr (.other opid) rA rB s =
      .next { s with run := .faulted ⟨.unsupportedALUOperation, s.pc, .aluOp opid⟩ }) ∧
  (∀ (s t : State) (r : FaultRecord), step s = .next t → t.run = .faulted r → r.cause ≠ .unsupportedALUOperation)

/-! Reset and launch. -/

/-- The reset state meets the invariant. -/
def Obligations.ResetMeetsTheInvariant : Prop := State.reset.Inv

/-- 10_state.md R41, 70_reset_and_hazards.md R240, 30_encoding.md R96 (decisions D10, D11, D20, D27): the state in which the
first step is taken, for every INIT_REGS, every INIT_MEM and every image of at most 256 bytes; a longer image is refused. -/
def Obligations.LaunchStateIsAsTheResetTableSays : Prop :=
  ∀ (initRegs : Fin 7 → Byte) (initMem : Nat → Byte) (image : List Byte),
    (256 < image.length → launch initRegs initMem image = none) ∧
    (image.length ≤ 256 → ∃ s, launch initRegs initMem image = some s ∧
      (∀ i : Fin 7, s.reg i.castSucc = initRegs i) ∧ s.reg 7 = 0xF4 ∧
      (∀ a, a < 256 → s.memRead a = some (image.getD a (initMem a))) ∧
      s.pc = 0 ∧ s.flags = ⟨false, false, false⟩ ∧ s.run = .running ∧ s.out = [] ∧ s.diag = [] ∧ s.Inv)

/-- 70_reset_and_hazards.md R241: every launch, and the reset state, begins Running with pc = 0. -/
def Obligations.EntryPointIsAddressZero : Prop :=
  (State.reset.pc = 0 ∧ State.reset.run = .running) ∧
  ∀ (initRegs : Fin 7 → Byte) (initMem : Nat → Byte) (image : List Byte) (s : State),
    launch initRegs initMem image = some s → s.pc = 0 ∧ s.run = .running

/-- 30_encoding.md R95, R96, 60_exceptions.md R224 (decision D20), over every text, which its lines make up: each line that
holds a literal gives its byte in order, blank and comment lines give none, a line that is neither refuses the file, as
does a length of more than 256 bytes and an absent file; and the plain text of an image, one literal a line, is read
back. The model's own choices (log entry 8): which characters are white space, and that a refusal names the first bad
line or the number of bytes. -/
def Obligations.LoaderReadsBackTheImage : Prop :=
  (∀ lines : List (List Char × Option Byte), (∀ l ∈ lines, '\n' ∉ l.1 ∧ LineHolds l.1 l.2) →
    parseImage (some (['\n'].intercalate (lines.map Prod.fst))) =
      if (lines.filterMap Prod.snd).length ≤ 256 then .ok (lines.filterMap Prod.snd)
      else .error (.tooLong (lines.filterMap Prod.snd).length)) ∧
  (∀ (before : List (List Char × Option Byte)) (bad : List Char) (after : List (List Char)),
    (∀ l ∈ before, '\n' ∉ l.1 ∧ LineHolds l.1 l.2) → '\n' ∉ bad → (∀ v, ¬LineHolds bad v) → (∀ l ∈ after, '\n' ∉ l) →
    parseImage (some (['\n'].intercalate (before.map Prod.fst ++ bad :: after))) =
      .error (.malformedLine before.length)) ∧
  parseImage none = .error .programNotFound ∧
  (∀ image : List Byte, image.length ≤ 256 → parseImage (some (imageText image)) = .ok image) ∧
  (∀ image : List Byte, 256 < image.length → parseImage (some (imageText image)) = .error (.tooLong image.length))

/-! The instructions: result, frame and completion. -/

/-- 41_alu.md R121 (ADD; decision D2). -/
def Obligations.AddAddsModulo256 : Prop :=
  (∀ (s : State) (rA rB : Byte) (ha : rA.toNat < 8) (hb : rB.toNat < 8), ∃ t, exec (.add rA rB) s = .next t ∧
    (t.reg ⟨rA.toNat, ha⟩).toNat = ((s.reg ⟨rA.toNat, ha⟩).toNat + (s.reg ⟨rB.toNat, hb⟩).toNat) % 256 ∧
    (∀ r : Reg, r.val ≠ rA.toNat → t.reg r = s.reg r) ∧ t.pc = s.pc + 3 ∧
    t.flags = s.flags ∧ t.mem = s.mem ∧ t.run = s.run ∧ t.out = s.out ∧ t.diag = s.diag) ∧
  (∀ (s : State) (rA rB : Byte), 8 ≤ rA.toNat → exec (.add rA rB) s = .next (s.faultedWith (.register rA.toNat))) ∧
  (∀ (s : State) (rA rB : Byte), rA.toNat < 8 → 8 ≤ rB.toNat →
    exec (.add rA rB) s = .next (s.faultedWith (.register rB.toNat))) ∧
  OperandFetchFaults .add ∧ ∀ rA rB : Byte, HasFormat (.add rA rB) [rA, rB]

/-- 41_alu.md R122 (MUL; decision D2). -/
def Obligations.MulMultipliesModulo256 : Prop :=
  (∀ (s : State) (rA rB : Byte) (ha : rA.toNat < 8) (hb : rB.toNat < 8), ∃ t, exec (.mul rA rB) s = .next t ∧
    (t.reg ⟨rA.toNat, ha⟩).toNat = ((s.reg ⟨rA.toNat, ha⟩).toNat * (s.reg ⟨rB.toNat, hb⟩).toNat) % 256 ∧
    (∀ r : Reg, r.val ≠ rA.toNat → t.reg r = s.reg r) ∧ t.pc = s.pc + 3 ∧
    t.flags = s.flags ∧ t.mem = s.mem ∧ t.run = s.run ∧ t.out = s.out ∧ t.diag = s.diag) ∧
  (∀ (s : State) (rA rB : Byte), 8 ≤ rA.toNat → exec (.mul rA rB) s = .next (s.faultedWith (.register rA.toNat))) ∧
  (∀ (s : State) (rA rB : Byte), rA.toNat < 8 → 8 ≤ rB.toNat →
    exec (.mul rA rB) s = .next (s.faultedWith (.register rB.toNat))) ∧
  OperandFetchFaults .mul ∧ ∀ rA rB : Byte, HasFormat (.mul rA rB) [rA, rB]

/-- 41_alu.md R123 (CMP; the comparison is unsigned, which the rule marks as derived from 10_state.md R20). -/
def Obligations.CompareSetsExactlyOneFlag : Prop :=
  (∀ (s : State) (rA rB : Byte) (ha : rA.toNat < 8) (hb : rB.toNat < 8), ∃ t, exec (.cmp rA rB) s = .next t ∧
    (t.flags.e = true ↔ (s.reg ⟨rA.toNat, ha⟩).toNat = (s.reg ⟨rB.toNat, hb⟩).toNat) ∧
    (t.flags.l = true ↔ (s.reg ⟨rA.toNat, ha⟩).toNat < (s.reg ⟨rB.toNat, hb⟩).toNat) ∧
    (t.flags.g = true ↔ (s.reg ⟨rB.toNat, hb⟩).toNat < (s.reg ⟨rA.toNat, ha⟩).toNat) ∧
    (t.flags = ⟨true, false, false⟩ ∨ t.flags = ⟨false, true, false⟩ ∨ t.flags = ⟨false, false, true⟩) ∧
    t.pc = s.pc + 3 ∧
    (∀ r : Reg, t.reg r = s.reg r) ∧ t.mem = s.mem ∧ t.run = s.run ∧ t.out = s.out ∧ t.diag = s.diag) ∧
  (∀ (s : State) (rA rB : Byte), 8 ≤ rA.toNat → exec (.cmp rA rB) s = .next (s.faultedWith (.register rA.toNat))) ∧
  (∀ (s : State) (rA rB : Byte), rA.toNat < 8 → 8 ≤ rB.toNat →
    exec (.cmp rA rB) s = .next (s.faultedWith (.register rB.toNat))) ∧
  OperandFetchFaults .cmp ∧ ∀ rA rB : Byte, HasFormat (.cmp rA rB) [rA, rB]

/-- 42_load_store_io.md R141 (LDI). The opcode byte, which the rule takes from general knowledge (K1), is left to the map. -/
def Obligations.LoadImmediateWritesTheByte : Prop :=
  (∀ (s : State) (rA imm : Byte) (ha : rA.toNat < 8), ∃ t, exec (.ldi rA imm) s = .next t ∧
    t.reg ⟨rA.toNat, ha⟩ = imm ∧ (∀ r : Reg, r.val ≠ rA.toNat → t.reg r = s.reg r) ∧ t.pc = s.pc + 3 ∧
    t.flags = s.flags ∧ t.mem = s.mem ∧ t.run = s.run ∧ t.out = s.out ∧ t.diag = s.diag) ∧
  (∀ (s : State) (rA imm : Byte), 8 ≤ rA.toNat →
    exec (.ldi rA imm) s = .next (s.faultedWith (.register rA.toNat))) ∧
  OperandFetchFaults .ldi ∧ ∀ rA imm : Byte, HasFormat (.ldi rA imm) [rA, imm]

/-- 42_load_store_io.md R142 (ST; ST_PC_ADVANCE = 3 is decision D3). The byte is stored at x[rA]; every other address reads
as before. -/
def Obligations.StoreWritesOneCell : Prop :=
  (∀ (s : State) (rA rB : Byte) (ha : rA.toNat < 8) (hb : rB.toNat < 8), ∃ t, exec (.st rA rB) s = .next t ∧
    t.memRead (s.reg ⟨rA.toNat, ha⟩).toNat = some (s.reg ⟨rB.toNat, hb⟩) ∧
    (∀ a, a ≠ (s.reg ⟨rA.toNat, ha⟩).toNat → t.memRead a = s.memRead a) ∧ t.pc = s.pc + 3 ∧
    (∀ r : Reg, t.reg r = s.reg r) ∧ t.flags = s.flags ∧ t.run = s.run ∧ t.out = s.out ∧ t.diag = s.diag) ∧
  (∀ (s : State) (rA rB : Byte), 8 ≤ rA.toNat → exec (.st rA rB) s = .next (s.faultedWith (.register rA.toNat))) ∧
  (∀ (s : State) (rA rB : Byte), rA.toNat < 8 → 8 ≤ rB.toNat →
    exec (.st rA rB) s = .next (s.faultedWith (.register rB.toNat))) ∧
  OperandFetchFaults .st ∧ ∀ rA rB : Byte, HasFormat (.st rA rB) [rA, rB]

/-- 42_load_store_io.md R142, 70_reset_and_hazards.md R245 (decision D3): with ST_PC_ADVANCE = 2 the store does the same but
for the pc, and the step after it fetches at ST's second operand byte. -/
def Obligations.StoreAdvanceTwoFetchesTheOperand : Prop :=
  ∀ (s : State) (rA rB : Byte) (ha : rA.toNat < 8), rB.toNat < 8 → s.memRead (s.pc + 2) = some rB →
    (s.reg ⟨rA.toNat, ha⟩).toNat ≠ s.pc + 2 →
    ∃ t u, storeInstr 2 rA rB s = .next t ∧ storeInstr 3 rA rB s = .next u ∧
      t = { u with pc := s.pc + 2 } ∧ t.memRead t.pc = some rB

/-- 42_load_store_io.md R143 (PRN). The opcode byte, which the rule takes from general knowledge (K1), is left to the map. -/
def Obligations.PrintAppendsTheRegister : Prop :=
  (∀ (s : State) (rA : Byte) (ha : rA.toNat < 8), ∃ t, exec (.prn rA) s = .next t ∧
    t.out = s.out ++ [s.reg ⟨rA.toNat, ha⟩] ∧ t.pc = s.pc + 2 ∧
    (∀ r : Reg, t.reg r = s.reg r) ∧ t.mem = s.mem ∧ t.flags = s.flags ∧ t.run = s.run ∧ t.diag = s.diag) ∧
  (∀ (s : State) (rA : Byte), 8 ≤ rA.toNat → exec (.prn rA) s = .next (s.faultedWith (.register rA.toNat))) ∧
  OperandFetchFaults .prn ∧ ∀ rA : Byte, HasFormat (.prn rA) [rA]

/-- 43_stack.md R163 (PUSH; the wrap of SP is decision D4, and that PUSH R7 pushes the decremented SP is decision D28). -/
def Obligations.PushStoresBelowTheStackPointer : Prop :=
  (∀ (s : State) (rA : Byte) (ha : rA.toNat < 8), ∃ t, exec (.push rA) s = .next t ∧
    t.sp.toNat = (s.sp.toNat + 255) % 256 ∧
    t.memRead (s.sp - 1).toNat = some (if rA.toNat = 7 then s.sp - 1 else s.reg ⟨rA.toNat, ha⟩) ∧
    (∀ a, a ≠ (s.sp - 1).toNat → t.memRead a = s.memRead a) ∧ t.pc = s.pc + 2 ∧
    (∀ r : Reg, r ≠ 7 → t.reg r = s.reg r) ∧ t.flags = s.flags ∧ t.run = s.run ∧ t.out = s.out ∧ t.diag = s.diag) ∧
  (∀ (s : State) (rA : Byte), 8 ≤ rA.toNat → exec (.push rA) s = .next (s.faultedWith (.register rA.toNat))) ∧
  OperandFetchFaults .push ∧ ∀ rA : Byte, HasFormat (.push rA) [rA]

/-- 43_stack.md R164 (POP; the wrap of SP is decision D4, and that POP R7 leaves the popped byte plus one in SP is decision
D28). -/
def Obligations.PopLoadsFromTheStackPointer : Prop :=
  (∀ (s : State) (rA : Byte) (ha : rA.toNat < 8), ∃ t, exec (.pop rA) s = .next t ∧
    (rA.toNat ≠ 7 → s.memRead s.sp.toNat = some (t.reg ⟨rA.toNat, ha⟩) ∧ t.sp.toNat = (s.sp.toNat + 1) % 256) ∧
    (rA.toNat = 7 → ∃ v, s.memRead s.sp.toNat = some v ∧ t.sp.toNat = (v.toNat + 1) % 256) ∧
    (∀ r : Reg, r.val ≠ rA.toNat → r ≠ 7 → t.reg r = s.reg r) ∧ t.pc = s.pc + 2 ∧
    t.mem = s.mem ∧ t.flags = s.flags ∧ t.run = s.run ∧ t.out = s.out ∧ t.diag = s.diag) ∧
  (∀ (s : State) (rA : Byte), 8 ≤ rA.toNat → exec (.pop rA) s = .next (s.faultedWith (.register rA.toNat))) ∧
  OperandFetchFaults .pop ∧ ∀ rA : Byte, HasFormat (.pop rA) [rA]

/-- 43_stack.md R161 and R162: the push and pop primitives, modulo 256, on every state. -/
def Obligations.PushAndPopPrimitives : Prop :=
  (∀ (s : State) (v : Byte), (s.push v).sp.toNat = (s.sp.toNat + 255) % 256 ∧
    (s.push v).memRead (s.push v).sp.toNat = some v ∧
    (∀ a, a ≠ (s.push v).sp.toNat → (s.push v).memRead a = s.memRead a) ∧
    (∀ r : Reg, r ≠ 7 → (s.push v).reg r = s.reg r) ∧ (s.push v).run = s.run) ∧
  (∀ s : State, s.memRead s.sp.toNat = some s.popped ∧ s.pop.sp.toNat = (s.sp.toNat + 1) % 256 ∧
    (∀ r : Reg, r ≠ 7 → s.pop.reg r = s.reg r) ∧ s.pop.mem = s.mem ∧ s.pop.run = s.run)

/-- 44_control.md R182 (CALL; the check of the return address is decision D12, that CALL R7 jumps to the decremented SP is
decision D28). -/
def Obligations.CallPushesTheReturnAddress : Prop :=
  (∀ (s : State) (rA : Byte) (ha : rA.toNat < 8), s.pc + 2 ≤ 255 → ∃ t, exec (.call rA) s = .next t ∧
    t.sp.toNat = (s.sp.toNat + 255) % 256 ∧
    (∃ v : Byte, t.memRead (s.sp - 1).toNat = some v ∧ v.toNat = s.pc + 2) ∧
    (∀ a, a ≠ (s.sp - 1).toNat → t.memRead a = s.memRead a) ∧
    t.pc = (if rA.toNat = 7 then s.sp - 1 else s.reg ⟨rA.toNat, ha⟩).toNat ∧
    (∀ r : Reg, r ≠ 7 → t.reg r = s.reg r) ∧ t.flags = s.flags ∧ t.run = s.run ∧ t.out = s.out ∧ t.diag = s.diag) ∧
  (∀ (s : State) (rA : Byte), 8 ≤ rA.toNat → exec (.call rA) s = .next (s.faultedWith (.register rA.toNat))) ∧
  (∀ (s : State) (rA : Byte), rA.toNat < 8 → 255 < s.pc + 2 →
    exec (.call rA) s = .next (s.faultedWith (.memory (s.pc + 2)))) ∧
  OperandFetchFaults .call ∧ ∀ rA : Byte, HasFormat (.call rA) [rA]

/-- 44_control.md R183 (RET). The opcode byte, which the rule takes from general knowledge (K1), is left to the map. -/
def Obligations.ReturnPopsThePc : Prop :=
  (∀ s : State, ∃ t v, exec .ret s = .next t ∧ s.memRead s.sp.toNat = some v ∧ t.pc = v.toNat ∧
    t.sp.toNat = (s.sp.toNat + 1) % 256 ∧ (∀ r : Reg, r ≠ 7 → t.reg r = s.reg r) ∧
    t.mem = s.mem ∧ t.flags = s.flags ∧ t.run = s.run ∧ t.out = s.out ∧ t.diag = s.diag) ∧
  HasFormat .ret []

/-- 44_control.md R184 (JMP), with its corner case: a jump to its own address runs forever. The opcode byte, which the rule
takes from general knowledge (K1), is left to the map. -/
def Obligations.JumpGoesToTheRegister : Prop :=
  (∀ (s : State) (rA : Byte) (ha : rA.toNat < 8),
    exec (.jmp rA) s = .next { s with pc := (s.reg ⟨rA.toNat, ha⟩).toNat }) ∧
  (∀ (s : State) (rA : Byte), 8 ≤ rA.toNat → exec (.jmp rA) s = .next (s.faultedWith (.register rA.toNat))) ∧
  OperandFetchFaults .jmp ∧ (∀ rA : Byte, HasFormat (.jmp rA) [rA]) ∧
  (∀ (s : State) (rA : Byte) (ha : rA.toNat < 8), s.run = .running → fetch s = .ok (.jmp rA) →
    (s.reg ⟨rA.toNat, ha⟩).toNat = s.pc → RunsForever s)

/-- 44_control.md R185 (JEQ), with its corner case: a branch not taken at 0xFE leaves pc = 0x100, where the next fetch
faults. The opcode byte, which the rule takes from general knowledge (K1), is left to the map. -/
def Obligations.JumpIfEqualReadsE : Prop :=
  (∀ (s : State) (rA : Byte) (ha : rA.toNat < 8),
    exec (.jeq rA) s =
      .next { s with pc := if s.flags.e = true then (s.reg ⟨rA.toNat, ha⟩).toNat else s.pc + 2 }) ∧
  (∀ (s : State) (rA : Byte), 8 ≤ rA.toNat → exec (.jeq rA) s = .next (s.faultedWith (.register rA.toNat))) ∧
  OperandFetchFaults .jeq ∧ (∀ rA : Byte, HasFormat (.jeq rA) [rA]) ∧
  (∀ (s : State) (rA : Byte), rA.toNat < 8 → s.run = .running → s.pc = 0xFE → s.flags.e = false →
    ∃ t, exec (.jeq rA) s = .next t ∧ t.pc = 0x100 ∧ step t = .next (t.faultedWith (.memory 0x100)))

/-- 44_control.md R186 (JNE). The opcode byte, which the rule takes from general knowledge (K1), is left to the map. -/
def Obligations.JumpIfNotEqualReadsE : Prop :=
  (∀ (s : State) (rA : Byte) (ha : rA.toNat < 8),
    exec (.jne rA) s =
      .next { s with pc := if s.flags.e = false then (s.reg ⟨rA.toNat, ha⟩).toNat else s.pc + 2 }) ∧
  (∀ (s : State) (rA : Byte), 8 ≤ rA.toNat → exec (.jne rA) s = .next (s.faultedWith (.register rA.toNat))) ∧
  OperandFetchFaults .jne ∧ (∀ rA : Byte, HasFormat (.jne rA) [rA])

/-- 44_control.md R187 (HLT; that pc stays at the HLT byte is decision D9): only the run state changes, and from then on there
is no step. -/
def Obligations.HaltEndsTheRun : Prop :=
  (∀ s : State, exec .hlt s = .next { s with run := .halted }) ∧
  (∀ s t : State, exec .hlt s = .next t → ∀ u, step t ≠ .next u) ∧ HasFormat .hlt []

/-! Rules over all instructions. -/

/-- 10_state.md R25, the table of register accesses: an instruction leaves every register its row does not name as written,
and what it does to everything else does not depend on a register its row does not name as read. -/
def Obligations.RegisterAccessTable : Prop :=
  ∀ (i : Instr) (s t : State) (r : Reg), exec i s = .next t →
    (¬writesReg i r → t.reg r = s.reg r) ∧
    (¬readsReg i r → ∀ v, ∃ t', exec i (s.setReg r v) = .next t' ∧ t' = t.setReg r (t'.reg r))

/-- 20_memory.md R51, the data accesses: an instruction leaves every byte but the one it stores as it was, and what it does to
everything else does not depend on a byte it does not read as data. -/
def Obligations.MemoryAccessTable : Prop :=
  ∀ (i : Instr) (s t : State) (a : Nat), exec i s = .next t →
    (¬storesAt i s a → t.mem.get a = s.mem.get a) ∧
    (¬loadsFrom i s a → ∀ v, ∃ t', exec i { s with mem := s.mem.set a v } = .next t' ∧
      t'.regs = t.regs ∧ t'.pc = t.pc ∧ t'.flags = t.flags ∧ t'.run = t.run ∧ t'.out = t.out ∧ t'.diag = t.diag ∧
      ∀ j, j ≠ a → t'.mem.get j = t.mem.get j)

/-- 10_state.md R33: no step but a CMP's changes a flag, and a CMP that raises nothing leaves exactly one true. -/
def Obligations.FlagsAreWrittenOnlyByCompare : Prop :=
  (∀ s t : State, step s = .next t → (∀ rA rB, fetch s ≠ .ok (.cmp rA rB)) → t.flags = s.flags) ∧
  (∀ (s t : State) (rA rB : Byte), step s = .next t → fetch s = .ok (.cmp rA rB) → t.run = .running →
    t.flags = ⟨true, false, false⟩ ∨ t.flags = ⟨false, true, false⟩ ∨ t.flags = ⟨false, false, true⟩)

/-- 10_state.md R36 (decisions D6, D13, D14): out grows only by a PRN, by one byte; diag grows only by an unmapped opcode, by
one entry; run leaves Running only to Halted by a HLT, or to Faulted. -/
def Obligations.EventsAndRunStateFrame : Prop :=
  ∀ s t : State, step s = .next t →
    ((∀ rA, fetch s ≠ .ok (.prn rA)) → t.out = s.out) ∧
    (∀ rA, fetch s = .ok (.prn rA) → t.run = .running → ∃ v, t.out = s.out ++ [v]) ∧
    ((∀ op, fetch s ≠ .unknown op) → t.diag = s.diag) ∧
    (∀ op, fetch s = .unknown op → t.diag = s.diag ++ [(s.pc, op)]) ∧
    (t.run = .halted ↔ fetch s = .ok .hlt)

/-- 10_state.md R28 (decisions D3, D7, D9): how each instruction that raises nothing moves pc; a raised fault leaves it. -/
def Obligations.PcMovesAsTheTableSays : Prop :=
  ∀ (i : Instr) (s t : State), s.run = .running → exec i s = .next t →
    ((∃ r, t.run = .faulted r) → t.pc = s.pc) ∧
    ((∀ r, t.run ≠ .faulted r) →
      match i with
      | .ldi _ _ | .add _ _ | .mul _ _ | .cmp _ _ | .st _ _ => t.pc = s.pc + 3
      | .prn _ | .push _ | .pop _ => t.pc = s.pc + 2
      | .jeq a => ∃ h : a.toNat < 8, t.pc = if s.flags.e = true then (s.reg ⟨a.toNat, h⟩).toNat else s.pc + 2
      | .jne a => ∃ h : a.toNat < 8, t.pc = if s.flags.e = true then s.pc + 2 else (s.reg ⟨a.toNat, h⟩).toNat
      | .jmp a => ∃ h : a.toNat < 8, t.pc = (s.reg ⟨a.toNat, h⟩).toNat
      | .call a => ∃ h : a.toNat < 8, t.pc = (t.reg ⟨a.toNat, h⟩).toNat
      | .ret => ∃ v, s.memRead s.sp.toNat = some v ∧ t.pc = v.toNat
      | .hlt => t.pc = s.pc)

/-- 10_state.md R34 (which the rule marks as derived): L and G are read by no step. Two states that differ in L and G alone
step to states that differ in L and G alone. -/
def Obligations.LessAndGreaterAreNeverRead : Prop :=
  ∀ (s t : State) (l g : Bool), step s = .next t →
    ∃ t', step { s with flags := ⟨s.flags.e, l, g⟩ } = .next t' ∧
      t' = { t with flags := ⟨t.flags.e, t'.flags.l, t'.flags.g⟩ }

/-- 10_state.md R24: R0..R6 are interchangeable. Under any renaming of the registers that keeps SP, the renamed instruction
in the renamed state does the renamed thing, whatever the instruction and the state. -/
def Obligations.GeneralRegistersAreInterchangeable : Prop :=
  ∀ (σ : Equiv.Perm Reg) (i : Instr) (s t : State), σ 7 = 7 → exec i s = .next t →
    exec (renameInstr σ i) (renameState σ s) = .next (renameState σ t)

/-! Sequences. -/

/-- 43_stack.md R165 (which the rule marks as derived): PUSH rA then POP rA restores x[rA], SP and every other register, for
every rA and every SP, 0x00 and rA = 7 included, and leaves the pushed byte in the cell. -/
def Obligations.PushThenPopRestores : Prop :=
  ∀ (s : State) (rA : Byte) (ha : rA.toNat < 8), ∃ t u, exec (.push rA) s = .next t ∧ exec (.pop rA) t = .next u ∧
    (∀ r : Reg, u.reg r = s.reg r) ∧
    u.memRead (s.sp - 1).toNat = some (if rA.toNat = 7 then s.sp - 1 else s.reg ⟨rA.toNat, ha⟩)

/-- 44_control.md R188 (which the rule marks as derived): after a CALL, a RET in any state whose SP and top stack byte are as
the CALL left them resumes at pc + 2 of the CALL with the SP of before it, whatever else has happened. -/
def Obligations.ReturnResumesAfterTheCall : Prop :=
  ∀ (s : State) (rA : Byte), rA.toNat < 8 → s.pc + 2 ≤ 255 → ∃ t, exec (.call rA) s = .next t ∧
    ∀ u : State, u.sp = t.sp → u.memRead u.sp.toNat = t.memRead t.sp.toNat →
      ∃ w, exec .ret u = .next w ∧ w.pc = s.pc + 2 ∧ w.sp = s.sp

/-- 44_control.md R189 (which the rule marks as derived): after CMP of two registers, JEQ branches exactly when their values
are equal, and JNE exactly when they are not. -/
def Obligations.BranchAfterCompareDecidesEquality : Prop :=
  ∀ (s : State) (rA rB rC : Byte) (ha : rA.toNat < 8) (hb : rB.toNat < 8) (hc : rC.toNat < 8),
    ∃ t, exec (.cmp rA rB) s = .next t ∧
      exec (.jeq rC) t = .next (t.setPc
        (if s.reg ⟨rA.toNat, ha⟩ = s.reg ⟨rB.toNat, hb⟩ then (s.reg ⟨rC.toNat, hc⟩).toNat else t.pc + 2)) ∧
      exec (.jne rC) t = .next (t.setPc
        (if s.reg ⟨rA.toNat, ha⟩ = s.reg ⟨rB.toNat, hb⟩ then t.pc + 2 else (s.reg ⟨rC.toNat, hc⟩).toNat))

/-- 20_memory.md R63, 70_reset_and_hazards.md R244 (decision D23): a byte that ST, PUSH or CALL writes where the next
instruction is fetched is the opcode the very next step takes, whatever the byte. That ST goes on at pc + 3 is decision D3
(log entry 7); the wrap of SP is decision D4, CALL's check of pc + 2 is D12, and what PUSH R7 and CALL R7 do is D28. -/
def Obligations.StoredOpcodeRunsInTheNextStep : Prop :=
  (∀ (s : State) (rA rB : Byte) (ha : rA.toNat < 8) (hb : rB.toNat < 8), s.run = .running →
    (s.reg ⟨rA.toNat, ha⟩).toNat = s.pc + 3 →
    ∃ t, exec (.st rA rB) s = .next t ∧ t.pc = s.pc + 3 ∧ StepTakesOpcode t (s.reg ⟨rB.toNat, hb⟩)) ∧
  (∀ (s : State) (rA : Byte) (ha : rA.toNat < 8), s.run = .running → (s.sp - 1).toNat = s.pc + 2 →
    ∃ t, exec (.push rA) s = .next t ∧ t.pc = s.pc + 2 ∧
      StepTakesOpcode t (if rA.toNat = 7 then s.sp - 1 else s.reg ⟨rA.toNat, ha⟩)) ∧
  (∀ (s : State) (rA : Byte) (ha : rA.toNat < 8), s.run = .running → s.pc + 2 ≤ 255 →
    (if rA.toNat = 7 then s.sp - 1 else s.reg ⟨rA.toNat, ha⟩) = s.sp - 1 →
    ∃ t, exec (.call rA) s = .next t ∧ t.pc = (s.sp - 1).toNat ∧ StepTakesOpcode t (BitVec.ofNat 8 (s.pc + 2)))

/-- 20_memory.md R61: a read of a cell returns the byte last written to it, and a write leaves every other cell. -/
def Obligations.ReadReturnsTheLastWrite : Prop :=
  ∀ (s : State) (a v : Byte) (j : Nat),
    (s.store a v).memRead j = if j = a.toNat then some v else s.memRead j

/-- 41_alu.md R120, R125 (decision D2): the ALU as a function of its identifier and two unsigned bytes. -/
def Obligations.AluIsExactModulo256 : Prop :=
  ∀ a b : Byte,
    (∃ v, alu .add a b = .ok (.value v) ∧ v.toNat = (a.toNat + b.toNat) % 256) ∧
    (∃ v, alu .mul a b = .ok (.value v) ∧ v.toNat = (a.toNat * b.toNat) % 256) ∧
    alu .cmp a b = .ok (.flags ⟨decide (a.toNat = b.toNat), decide (a.toNat < b.toNat), decide (b.toNat < a.toNat)⟩)

/-- 42_load_store_io.md R144 (decision D14): the rendered lines of the vectors PR1 to PR5 of 95_test_vectors.md. -/
def Obligations.RenderedLinesOfTheVectors : Prop :=
  renderPrint 0x48 = "hex val: 48\tdec val: 72\n".toList ∧
  renderPrint 0x00 = "hex val: 0\tdec val: 0\n".toList ∧
  renderPrint 0xFF = "hex val: ff\tdec val: 255\n".toList ∧
  renderPrint 0x0A = "hex val: a\tdec val: 10\n".toList ∧
  renderPrint 0xF4 = "hex val: f4\tdec val: 244\n".toList

/-! Headlines. -/

/-- Every step keeps the invariant: the memory's canonical form, pc at most 256 (10_state.md R27, whose bound is 258), the
flags exclusive (R32), a fault record that agrees with pc (R31, 60_exceptions.md R214), diagnostics of unmapped bytes
at memory addresses (40_dispatch.md R105). The canonical form is the model's own (log entry 2). -/
def Obligations.StepKeepsTheInvariant : Prop :=
  ∀ s t : State, s.Inv → step s = .next t → t.Inv

/-- 60_exceptions.md R223 (which the rule marks as derived), 40_dispatch.md R107, R109 (decisions D6, D25): a run ends
in Halted, ends in Faulted or never ends, and exactly one of the three. -/
def Obligations.EveryRunHaltsFaultsOrNeverEnds : Prop :=
  ∀ s : State, (EndsHalted s ∨ EndsFaulted s ∨ RunsForever s) ∧
    ¬(EndsHalted s ∧ EndsFaulted s) ∧ ¬(EndsHalted s ∧ RunsForever s) ∧ ¬(EndsFaulted s ∧ RunsForever s)
end

