-- ==== Sys2Proof/Laws/Decode.lean ====
section
/-!
SUPPORT. Lemmas of the decoder and the encoder: the map's two directions agree, and what the decoder reads.
-/

namespace Sys2Proof

/-- A looked-up operation has a row. -/
theorem OpcodeMap.mem_of_lookup {m : OpcodeMap} {op : Byte} {o : Op} (h : m.lookup op = some o) : (op, o) ∈ m := by
  induction m with
  | nil => simp [OpcodeMap.lookup] at h
  | cons r m ih =>
    obtain ⟨b, p⟩ := r
    simp only [OpcodeMap.lookup] at h
    split at h
    · next e => subst e; simp_all
    · exact List.mem_cons_of_mem _ (ih h)

/-- An operation that has a row has the byte of some row of it. -/
theorem OpcodeMap.byteOf_mem {m : OpcodeMap} {o : Op} (h : o ∈ m.map Prod.snd) : (m.byteOf o, o) ∈ m := by
  induction m with
  | nil => simp at h
  | cons r m ih =>
    obtain ⟨b, p⟩ := r
    simp only [OpcodeMap.byteOf]
    split
    · next e => subst e; exact List.mem_cons_self
    · next e =>
      rcases List.mem_cons.1 h with rfl | h
      · exact absurd rfl e
      · exact List.mem_cons_of_mem _ (ih h)

/-- Where no byte has two rows, a row's byte looks its operation up. -/
theorem OpcodeMap.lookup_of_mem {m : OpcodeMap} (hn : (m.map Prod.fst).Nodup) {b : Byte} {o : Op} (h : (b, o) ∈ m) :
    m.lookup b = some o := by
  induction m with
  | nil => simp at h
  | cons r m ih =>
    obtain ⟨c, p⟩ := r
    simp only [List.map_cons, List.nodup_cons] at hn
    simp only [OpcodeMap.lookup]
    rcases List.mem_cons.1 h with e | hm
    · simp only [Prod.mk.injEq] at e; simp [e]
    · have : b ≠ c := fun e => hn.1 (e ▸ List.mem_map_of_mem (f := Prod.fst) hm)
      simp [this, ih hn.2 hm]

/-- Every operation is in the list of all. -/
theorem Op.mem_all (o : Op) : o ∈ Op.all := by cases o <;> decide

/-- What a well-formed OPCODE_MAP gives: distinct bytes, and one row for each operation. -/
theorem OpcodeMap.wellFormed_iff (m : OpcodeMap) :
    m.wellFormed = true ↔ (m.map Prod.fst).Nodup ∧ ∀ o : Op, (m.map Prod.snd).count o = 1 := by
  simp only [OpcodeMap.wellFormed, Bool.and_eq_true, decide_eq_true_eq, List.all_eq_true, beq_iff_eq]
  exact and_congr_right fun _ => ⟨fun h o => h o o.mem_all, fun h o _ => h o⟩

/-- In a well-formed map the opcode byte of an operation looks it up. -/
theorem OpcodeMap.lookup_byteOf {m : OpcodeMap} (h : m.wellFormed = true) (o : Op) : m.lookup (m.byteOf o) = some o := by
  obtain ⟨hn, hc⟩ := m.wellFormed_iff.1 h
  exact OpcodeMap.lookup_of_mem hn (OpcodeMap.byteOf_mem (List.count_pos_iff.1 (by rw [hc o]; decide)))

/-- The default OPCODE_MAP is well formed. -/
theorem opcodeMap_wellFormed : opcodeMap.wellFormed = true := by decide

/-- An instruction is built of its operation and its operand bytes. -/
theorem Instr.build_operandBytes (i : Instr) : i.op.build (i.operandBytes.getD 0 0) (i.operandBytes.getD 1 0) = i := by
  cases i <;> rfl

/-- The operation of a built instruction. -/
@[simp] theorem Op.op_build (o : Op) (b1 b2 : Byte) : (o.build b1 b2).op = o := by cases o <;> rfl

/-- A format of length 1 has no operand byte, and so on: an instruction has length - 1 operand bytes. -/
theorem Instr.length_eq (i : Instr) : i.length = i.operandBytes.length + 1 := by cases i <;> rfl

/-- All that the decoder can answer, and what it has read then: an instruction of the operation its opcode byte names,
the opcode byte that has no row, or the first byte that is not there. -/
theorem decodeFrom_cases (m : OpcodeMap) (read : Nat → Option Byte) :
    (∃ i op, decodeFrom m read = .ok i ∧ read 0 = some op ∧ m.lookup op = some i.op ∧
        ∀ k, k < i.length → ∃ b, read k = some b) ∨
      (∃ op, decodeFrom m read = .unknown op ∧ read 0 = some op ∧ m.lookup op = none) ∨
      (∃ k, decodeFrom m read = .missing k ∧ read k = none ∧ ∀ j, j < k → ∃ b, read j = some b) := by
  unfold decodeFrom
  cases h0 : read 0 with
  | none => exact .inr (.inr ⟨0, rfl, h0, fun j hj => absurd hj (Nat.not_lt_zero j)⟩)
  | some op =>
    cases ho : m.lookup op with
    | none => exact .inr (.inl ⟨op, by simp [ho], rfl, ho⟩)
    | some o =>
      have lt1 : ∀ j, j < 1 → ∃ b, read j = some b := fun j hj => ⟨op, by rw [show j = 0 by omega, h0]⟩
      cases h1 : read 1 with
      | none =>
        cases hf : o.format with
        | n => exact .inl ⟨o.build 0 0, op, by simp [ho, hf], rfl, by simpa using ho,
            fun k hk => lt1 k (by simpa [Instr.length, Op.length, hf, Format.length] using hk)⟩
        | r => exact .inr (.inr ⟨1, by simp [ho, hf], h1, lt1⟩)
        | rr => exact .inr (.inr ⟨1, by simp [ho, hf], h1, lt1⟩)
        | ri => exact .inr (.inr ⟨1, by simp [ho, hf], h1, lt1⟩)
      | some b1 =>
        have lt2 : ∀ j, j < 2 → ∃ b, read j = some b := fun j hj => by
          rcases Nat.lt_or_ge j 1 with h | h
          · exact lt1 j h
          · exact ⟨b1, by rw [show j = 1 by omega, h1]⟩
        have lt3 : ∀ b2, read 2 = some b2 → ∀ j, j < 3 → ∃ b, read j = some b := fun b2 h2 j hj => by
          rcases Nat.lt_or_ge j 2 with h | h
          · exact lt2 j h
          · exact ⟨b2, by rw [show j = 2 by omega, h2]⟩
        cases hf : o.format with
        | n => exact .inl ⟨o.build 0 0, op, by simp [ho, hf], rfl, by simpa using ho,
            fun k hk => lt1 k (by simpa [Instr.length, Op.length, hf, Format.length] using hk)⟩
        | r => exact .inl ⟨o.build b1 0, op, by simp [ho, hf], rfl, by simpa using ho,
            fun k hk => lt2 k (by simpa [Instr.length, Op.length, hf, Format.length] using hk)⟩
        | rr =>
          cases h2 : read 2 with
          | none => exact .inr (.inr ⟨2, by simp [ho, hf], h2, lt2⟩)
          | some b2 => exact .inl ⟨o.build b1 b2, op, by simp [ho, hf], rfl, by simpa using ho,
              fun k hk => lt3 b2 h2 k (by simpa [Instr.length, Op.length, hf, Format.length] using hk)⟩
        | ri =>
          cases h2 : read 2 with
          | none => exact .inr (.inr ⟨2, by simp [ho, hf], h2, lt2⟩)
          | some b2 => exact .inl ⟨o.build b1 b2, op, by simp [ho, hf], rfl, by simpa using ho,
              fun k hk => lt3 b2 h2 k (by simpa [Instr.length, Op.length, hf, Format.length] using hk)⟩

end Sys2Proof
end

