-- ==== Sys2Proof/Laws/Memory.lean ====
section
/-!
SUPPORT. The laws of memory: a read after a write, that every memory operation keeps the canonical form, and that
memories in it which read alike are equal.
-/

namespace Sys2Proof.Machine

@[simp] theorem Memory.get_nil (k : Nat) : Memory.get [] k = Config.unlisted := rfl

/-- A read after a removal. -/
theorem Memory.get_remove (m : Memory) (k j : Nat) :
    (m.remove k).get j = if j = k then Config.unlisted else m.get j := by
  induction m with
  | nil => simp [Memory.remove, Memory.get]
  | cons c m ih =>
    obtain ⟨a, v⟩ := c
    simp only [Memory.remove, List.filter_cons] at ih ⊢
    by_cases ha : a = k
    · subst ha
      by_cases hj : j = a <;> simp_all [Memory.get]
    · by_cases hj : j = k
      · subst hj; simp_all [Memory.get, Ne.symm ha]
      · by_cases hja : j = a <;> simp_all [Memory.get]

/-- A read after an insertion. -/
theorem Memory.get_insert (m : Memory) (k j : Nat) (v : Byte) :
    (m.insert k v).get j = if j = k then v else m.get j := by
  induction m with
  | nil => rfl
  | cons c m ih =>
    obtain ⟨a, w⟩ := c
    simp only [Memory.insert]
    split
    · rfl
    split
    · next h => subst h; by_cases hj : j = k <;> simp [Memory.get, hj]
    · next h =>
      by_cases hj : j = a
      · simp [Memory.get, hj, Ne.symm h]
      · simp [Memory.get, hj, ih]

/-- A read after a write, at any address of any list of cells. -/
theorem Memory.get_set (m : Memory) (k j : Nat) (v : Byte) :
    (m.set k v).get j = if j = k then v else m.get j := by
  unfold Memory.set
  split
  · next h => rw [Memory.get_remove, h]
  · exact Memory.get_insert m k j v

@[simp] theorem Memory.get_set_self (m : Memory) (k : Nat) (v : Byte) : (m.set k v).get k = v := by
  simp [Memory.get_set]

theorem Memory.get_set_ne (m : Memory) (v : Byte) {k j : Nat} (h : j ≠ k) : (m.set k v).get j = m.get j := by
  simp [Memory.get_set, h]

/-! The canonical form. -/

theorem Memory.wf_nil : Memory.wf [] := by simp [Memory.wf]

/-- A removal keeps the canonical form. -/
theorem Memory.wf_remove {m : Memory} (h : m.wf) (k : Nat) : (m.remove k).wf :=
  ⟨h.1.filter _, fun c hc => h.2 c (List.mem_filter.1 hc).1⟩

/-- The cells of an insertion are the new one and some of the old. -/
theorem Memory.mem_insert {m : Memory} {k : Nat} {v : Byte} {c : Host.Cell} (h : c ∈ m.insert k v) :
    c = (k, v) ∨ c ∈ m := by
  induction m with
  | nil => simpa [Memory.insert] using h
  | cons d m ih =>
    obtain ⟨a, w⟩ := d
    simp only [Memory.insert] at h
    split at h
    · simpa using h
    split at h
    · rcases List.mem_cons.1 h with rfl | h
      · exact .inl rfl
      · exact .inr (List.mem_cons_of_mem _ h)
    · rcases List.mem_cons.1 h with rfl | h
      · exact .inr List.mem_cons_self
      · exact (ih h).imp_right (List.mem_cons_of_mem _)

/-- An insertion at an address that exists, of a byte that is listed, keeps the canonical form. -/
theorem Memory.wf_insert {m : Memory} (h : m.wf) {k : Nat} {v : Byte} (hk : k < Config.memSize)
    (hv : v ≠ Config.unlisted) : (m.insert k v).wf := by
  refine ⟨?_, fun c hc => ?_⟩
  · have hp := h.1
    clear h
    induction m with
    | nil => simp [Memory.insert]
    | cons d m ih =>
      obtain ⟨a, w⟩ := d
      obtain ⟨hlt, hp'⟩ := List.pairwise_cons.1 hp
      simp only [Memory.insert]
      split
      · next hka =>
        refine List.pairwise_cons.2 ⟨fun c hc => ?_, hp⟩
        rcases List.mem_cons.1 hc with rfl | hc
        · exact hka
        · exact lt_trans hka (hlt c hc)
      split
      · next hka => subst hka; exact List.pairwise_cons.2 ⟨hlt, hp'⟩
      · next h1 h2 =>
        refine List.pairwise_cons.2 ⟨fun c hc => ?_, ih hp'⟩
        rcases Memory.mem_insert hc with rfl | hc
        · show a < k
          omega
        · exact hlt c hc
  · rcases Memory.mem_insert hc with rfl | hc
    · exact ⟨hk, hv⟩
    · exact h.2 c hc

/-- A write at an address that exists keeps the canonical form. -/
theorem Memory.wf_set {m : Memory} (h : m.wf) {k : Nat} (v : Byte) (hk : k < Config.memSize) : (m.set k v).wf := by
  unfold Memory.set
  split
  · exact Memory.wf_remove h k
  · next hv => exact Memory.wf_insert h hk hv

/-- A store at a byte address keeps the canonical form: every byte is an address. -/
theorem Memory.wf_set_byte {m : Memory} (h : m.wf) (a v : Byte) : (m.set a.toNat v).wf :=
  Memory.wf_set h v a.isLt

/-- Placing bytes keeps the canonical form. -/
theorem Memory.wf_place {m : Memory} (h : m.wf) (a : Nat) (bs : List Byte) : (m.place a bs).wf := by
  induction bs generalizing m a with
  | nil => exact h
  | cons b bs ih =>
    simp only [Memory.place]
    split
    · next ha => exact ih (Memory.wf_set h b ha) _
    · exact ih h _

/-- A read after bytes were placed from address `a`: the placed byte inside their range (if the address exists), the
old byte elsewhere. -/
theorem Memory.get_place (m : Memory) (a j : Nat) (bs : List Byte) (hj : j < Config.memSize) :
    (m.place a bs).get j = if a ≤ j ∧ j < a + bs.length then bs.getD (j - a) 0 else m.get j := by
  induction bs generalizing m a with
  | nil => simp [Memory.place]
  | cons b bs ih =>
    simp only [Memory.place]
    rw [ih]
    by_cases h1 : j = a
    · subst h1; simp [hj]
    · have hm : (if a < Config.memSize then m.set a b else m).get j = m.get j := by
        split
        · exact Memory.get_set_ne m b h1
        · rfl
      rw [hm]
      by_cases h2 : a < j ∧ j < a + (bs.length + 1)
      · obtain ⟨n, rfl⟩ : ∃ n, j = a + 1 + n := ⟨j - (a + 1), by omega⟩
        have e1 : a + 1 + n - a = n + 1 := by omega
        have e2 : a + 1 + n - (a + 1) = n := by omega
        rw [if_pos (by omega), if_pos (by simp only [List.length_cons]; omega), e1, e2]
        simp
      · rw [if_neg (by omega), if_neg (by simp only [List.length_cons]; omega)]

/-- Reads of a memory given by a function. -/
theorem Memory.get_ofFn (f : Nat → Byte) (n j : Nat) :
    (Memory.ofFn f n).get j = if j < n then f j else Config.unlisted := by
  induction n with
  | zero => simp [Memory.ofFn]
  | succ n ih =>
    simp only [Memory.ofFn, Memory.get_set, ih]
    by_cases h : j = n
    · simp [h]
    · simp only [h, if_false]
      congr 1
      exact propext ⟨by omega, by omega⟩

/-- A memory given by a function is in the canonical form. -/
theorem Memory.wf_ofFn (f : Nat → Byte) {n : Nat} (hn : n ≤ Config.memSize) : (Memory.ofFn f n).wf := by
  induction n with
  | zero => exact Memory.wf_nil
  | succ n ih => exact Memory.wf_set (ih (by omega)) _ (by omega)

/-- In the canonical form, an address below the first cell's reads as unlisted. -/
theorem Memory.get_of_lt {m : Memory} (h : m.Pairwise fun c d => c.1 < d.1) {k : Nat}
    (hk : ∀ c ∈ m, k < c.1) : m.get k = Config.unlisted := by
  induction m with
  | nil => rfl
  | cons c m ih =>
    obtain ⟨a, v⟩ := c
    have : k < a := hk _ List.mem_cons_self
    simp only [Memory.get, show k ≠ a by omega, if_false]
    exact ih (List.pairwise_cons.1 h).2 fun d hd => hk d (List.mem_cons_of_mem _ hd)

/-- Memories in the canonical form that read alike are equal. -/
theorem Memory.ext_get {m m' : Memory} (h : m.wf) (h' : m'.wf) (hg : ∀ k, m.get k = m'.get k) : m = m' := by
  induction m generalizing m' with
  | nil =>
    cases m' with
    | nil => rfl
    | cons c m' =>
      have := hg c.1
      simp only [Memory.get, if_true] at this
      exact absurd this.symm (h'.2 c List.mem_cons_self).2
  | cons c m ih =>
    cases m' with
    | nil =>
      have := hg c.1
      simp only [Memory.get, if_true] at this
      exact absurd this (h.2 c List.mem_cons_self).2
    | cons d m' =>
      obtain ⟨a, v⟩ := c
      obtain ⟨b, w⟩ := d
      obtain ⟨ha, hp⟩ := List.pairwise_cons.1 h.1
      obtain ⟨hb, hp'⟩ := List.pairwise_cons.1 h'.1
      have hv := (h.2 _ List.mem_cons_self).2
      have hw := (h'.2 _ List.mem_cons_self).2
      have hab : a = b := by
        rcases Nat.lt_trichotomy a b with hlt | heq | hgt
        · have e := hg a
          rw [Memory.get_of_lt h'.1 (k := a)] at e
          · simp only [Memory.get, if_true] at e; exact absurd e hv
          · intro c hc
            rcases List.mem_cons.1 hc with rfl | hc
            · exact hlt
            · exact lt_trans hlt (hb c hc)
        · exact heq
        · have e := hg b
          rw [Memory.get_of_lt h.1 (k := b)] at e
          · simp only [Memory.get, if_true] at e; exact absurd e.symm hw
          · intro c hc
            rcases List.mem_cons.1 hc with rfl | hc
            · exact hgt
            · exact lt_trans hgt (ha c hc)
      subst hab
      have hvw : v = w := by simpa [Memory.get] using hg a
      subst hvw
      congr 1
      refine ih ⟨hp, fun c hc => h.2 c (List.mem_cons_of_mem _ hc)⟩
        ⟨hp', fun c hc => h'.2 c (List.mem_cons_of_mem _ hc)⟩ fun k => ?_
      by_cases hk : k = a
      · subst hk
        rw [Memory.get_of_lt hp ha, Memory.get_of_lt hp' hb]
      · simpa [Memory.get, hk] using hg k

end Sys2Proof.Machine
end

