-- ==== Sys2Proof/Laws/State.lean ====
section
/-!
SUPPORT. One lemma per field per update of the state, and the register reads after each update, so that no proof
unfolds a record update.
-/

namespace Sys2Proof.Machine

/-! `setReg`. -/

@[simp] theorem State.setReg_regs (s : State) (i : Reg) (v : Byte) : (s.setReg i v).regs = s.regs.set i v := rfl
@[simp] theorem State.setReg_mem (s : State) (i : Reg) (v : Byte) : (s.setReg i v).mem = s.mem := rfl
@[simp] theorem State.setReg_pc (s : State) (i : Reg) (v : Byte) : (s.setReg i v).pc = s.pc := rfl
@[simp] theorem State.setReg_flags (s : State) (i : Reg) (v : Byte) : (s.setReg i v).flags = s.flags := rfl
@[simp] theorem State.setReg_run (s : State) (i : Reg) (v : Byte) : (s.setReg i v).run = s.run := rfl
@[simp] theorem State.setReg_out (s : State) (i : Reg) (v : Byte) : (s.setReg i v).out = s.out := rfl
@[simp] theorem State.setReg_diag (s : State) (i : Reg) (v : Byte) : (s.setReg i v).diag = s.diag := rfl

/-! `setSp`. -/

@[simp] theorem State.setSp_regs (s : State) (v : Byte) : (s.setSp v).regs = s.regs.set spIndex v := rfl
@[simp] theorem State.setSp_mem (s : State) (v : Byte) : (s.setSp v).mem = s.mem := rfl
@[simp] theorem State.setSp_pc (s : State) (v : Byte) : (s.setSp v).pc = s.pc := rfl
@[simp] theorem State.setSp_flags (s : State) (v : Byte) : (s.setSp v).flags = s.flags := rfl
@[simp] theorem State.setSp_run (s : State) (v : Byte) : (s.setSp v).run = s.run := rfl
@[simp] theorem State.setSp_out (s : State) (v : Byte) : (s.setSp v).out = s.out := rfl
@[simp] theorem State.setSp_diag (s : State) (v : Byte) : (s.setSp v).diag = s.diag := rfl

/-! `store`. -/

@[simp] theorem State.store_regs (s : State) (a v : Byte) : (s.store a v).regs = s.regs := rfl
@[simp] theorem State.store_mem (s : State) (a v : Byte) : (s.store a v).mem = s.mem.set a.toNat v := rfl
@[simp] theorem State.store_pc (s : State) (a v : Byte) : (s.store a v).pc = s.pc := rfl
@[simp] theorem State.store_flags (s : State) (a v : Byte) : (s.store a v).flags = s.flags := rfl
@[simp] theorem State.store_run (s : State) (a v : Byte) : (s.store a v).run = s.run := rfl
@[simp] theorem State.store_out (s : State) (a v : Byte) : (s.store a v).out = s.out := rfl
@[simp] theorem State.store_diag (s : State) (a v : Byte) : (s.store a v).diag = s.diag := rfl
@[simp] theorem State.store_reg (s : State) (a v : Byte) (j : Reg) : (s.store a v).reg j = s.reg j := rfl
@[simp] theorem State.store_sp (s : State) (a v : Byte) : (s.store a v).sp = s.sp := rfl

/-! `setPc`. -/

@[simp] theorem State.setPc_regs (s : State) (n : Nat) : (s.setPc n).regs = s.regs := rfl
@[simp] theorem State.setPc_mem (s : State) (n : Nat) : (s.setPc n).mem = s.mem := rfl
@[simp] theorem State.setPc_pc (s : State) (n : Nat) : (s.setPc n).pc = n := rfl
@[simp] theorem State.setPc_flags (s : State) (n : Nat) : (s.setPc n).flags = s.flags := rfl
@[simp] theorem State.setPc_run (s : State) (n : Nat) : (s.setPc n).run = s.run := rfl
@[simp] theorem State.setPc_out (s : State) (n : Nat) : (s.setPc n).out = s.out := rfl
@[simp] theorem State.setPc_diag (s : State) (n : Nat) : (s.setPc n).diag = s.diag := rfl
@[simp] theorem State.setPc_reg (s : State) (n : Nat) (j : Reg) : (s.setPc n).reg j = s.reg j := rfl
@[simp] theorem State.setPc_sp (s : State) (n : Nat) : (s.setPc n).sp = s.sp := rfl

/-! `advance`. -/

@[simp] theorem State.advance_regs (s : State) (n : Nat) : (s.advance n).regs = s.regs := rfl
@[simp] theorem State.advance_mem (s : State) (n : Nat) : (s.advance n).mem = s.mem := rfl
@[simp] theorem State.advance_pc (s : State) (n : Nat) : (s.advance n).pc = s.pc + n := rfl
@[simp] theorem State.advance_flags (s : State) (n : Nat) : (s.advance n).flags = s.flags := rfl
@[simp] theorem State.advance_run (s : State) (n : Nat) : (s.advance n).run = s.run := rfl
@[simp] theorem State.advance_out (s : State) (n : Nat) : (s.advance n).out = s.out := rfl
@[simp] theorem State.advance_diag (s : State) (n : Nat) : (s.advance n).diag = s.diag := rfl
@[simp] theorem State.advance_reg (s : State) (n : Nat) (j : Reg) : (s.advance n).reg j = s.reg j := rfl
@[simp] theorem State.advance_sp (s : State) (n : Nat) : (s.advance n).sp = s.sp := rfl

/-! `setFlags`. -/

@[simp] theorem State.setFlags_regs (s : State) (f : Flags) : (s.setFlags f).regs = s.regs := rfl
@[simp] theorem State.setFlags_mem (s : State) (f : Flags) : (s.setFlags f).mem = s.mem := rfl
@[simp] theorem State.setFlags_pc (s : State) (f : Flags) : (s.setFlags f).pc = s.pc := rfl
@[simp] theorem State.setFlags_flags (s : State) (f : Flags) : (s.setFlags f).flags = f := rfl
@[simp] theorem State.setFlags_run (s : State) (f : Flags) : (s.setFlags f).run = s.run := rfl
@[simp] theorem State.setFlags_out (s : State) (f : Flags) : (s.setFlags f).out = s.out := rfl
@[simp] theorem State.setFlags_diag (s : State) (f : Flags) : (s.setFlags f).diag = s.diag := rfl
@[simp] theorem State.setFlags_reg (s : State) (f : Flags) (j : Reg) : (s.setFlags f).reg j = s.reg j := rfl
@[simp] theorem State.setFlags_sp (s : State) (f : Flags) : (s.setFlags f).sp = s.sp := rfl

/-! `setRun`. -/

@[simp] theorem State.setRun_regs (s : State) (r : RunState) : (s.setRun r).regs = s.regs := rfl
@[simp] theorem State.setRun_mem (s : State) (r : RunState) : (s.setRun r).mem = s.mem := rfl
@[simp] theorem State.setRun_pc (s : State) (r : RunState) : (s.setRun r).pc = s.pc := rfl
@[simp] theorem State.setRun_flags (s : State) (r : RunState) : (s.setRun r).flags = s.flags := rfl
@[simp] theorem State.setRun_run (s : State) (r : RunState) : (s.setRun r).run = r := rfl
@[simp] theorem State.setRun_out (s : State) (r : RunState) : (s.setRun r).out = s.out := rfl
@[simp] theorem State.setRun_diag (s : State) (r : RunState) : (s.setRun r).diag = s.diag := rfl
@[simp] theorem State.setRun_reg (s : State) (r : RunState) (j : Reg) : (s.setRun r).reg j = s.reg j := rfl
@[simp] theorem State.setRun_sp (s : State) (r : RunState) : (s.setRun r).sp = s.sp := rfl

/-! `emitPrint`. -/

@[simp] theorem State.emitPrint_regs (s : State) (v : Byte) : (s.emitPrint v).regs = s.regs := rfl
@[simp] theorem State.emitPrint_mem (s : State) (v : Byte) : (s.emitPrint v).mem = s.mem := rfl
@[simp] theorem State.emitPrint_pc (s : State) (v : Byte) : (s.emitPrint v).pc = s.pc := rfl
@[simp] theorem State.emitPrint_flags (s : State) (v : Byte) : (s.emitPrint v).flags = s.flags := rfl
@[simp] theorem State.emitPrint_run (s : State) (v : Byte) : (s.emitPrint v).run = s.run := rfl
@[simp] theorem State.emitPrint_out (s : State) (v : Byte) : (s.emitPrint v).out = s.out ++ [v] := rfl
@[simp] theorem State.emitPrint_diag (s : State) (v : Byte) : (s.emitPrint v).diag = s.diag := rfl
@[simp] theorem State.emitPrint_reg (s : State) (v : Byte) (j : Reg) : (s.emitPrint v).reg j = s.reg j := rfl
@[simp] theorem State.emitPrint_sp (s : State) (v : Byte) : (s.emitPrint v).sp = s.sp := rfl

/-! `emitUnknown`. -/

@[simp] theorem State.emitUnknown_regs (s : State) (op : Byte) : (s.emitUnknown op).regs = s.regs := rfl
@[simp] theorem State.emitUnknown_mem (s : State) (op : Byte) : (s.emitUnknown op).mem = s.mem := rfl
@[simp] theorem State.emitUnknown_pc (s : State) (op : Byte) : (s.emitUnknown op).pc = s.pc := rfl
@[simp] theorem State.emitUnknown_flags (s : State) (op : Byte) : (s.emitUnknown op).flags = s.flags := rfl
@[simp] theorem State.emitUnknown_run (s : State) (op : Byte) : (s.emitUnknown op).run = s.run := rfl
@[simp] theorem State.emitUnknown_out (s : State) (op : Byte) : (s.emitUnknown op).out = s.out := rfl
@[simp] theorem State.emitUnknown_diag (s : State) (op : Byte) : (s.emitUnknown op).diag = s.diag ++ [(s.pc, op)] := rfl
@[simp] theorem State.emitUnknown_reg (s : State) (op : Byte) (j : Reg) : (s.emitUnknown op).reg j = s.reg j := rfl
@[simp] theorem State.emitUnknown_sp (s : State) (op : Byte) : (s.emitUnknown op).sp = s.sp := rfl

/-! `push`, `pop` and `placeAtPc`, built from the updates above. -/

@[simp] theorem State.push_regs (s : State) (v : Byte) : (s.push v).regs = s.regs.set spIndex (s.sp - 1) := rfl
@[simp] theorem State.push_pc (s : State) (v : Byte) : (s.push v).pc = s.pc := rfl
@[simp] theorem State.push_flags (s : State) (v : Byte) : (s.push v).flags = s.flags := rfl
@[simp] theorem State.push_run (s : State) (v : Byte) : (s.push v).run = s.run := rfl
@[simp] theorem State.push_out (s : State) (v : Byte) : (s.push v).out = s.out := rfl
@[simp] theorem State.push_diag (s : State) (v : Byte) : (s.push v).diag = s.diag := rfl

@[simp] theorem State.pop_regs (s : State) : (s.pop).regs = s.regs.set spIndex (s.sp + 1) := rfl
@[simp] theorem State.pop_mem (s : State) : (s.pop).mem = s.mem := rfl
@[simp] theorem State.pop_pc (s : State) : (s.pop).pc = s.pc := rfl
@[simp] theorem State.pop_flags (s : State) : (s.pop).flags = s.flags := rfl
@[simp] theorem State.pop_run (s : State) : (s.pop).run = s.run := rfl
@[simp] theorem State.pop_out (s : State) : (s.pop).out = s.out := rfl
@[simp] theorem State.pop_diag (s : State) : (s.pop).diag = s.diag := rfl

@[simp] theorem placeAtPc_regs (bs : List Byte) (s : State) : (placeAtPc bs s).regs = s.regs := rfl
@[simp] theorem placeAtPc_mem (bs : List Byte) (s : State) : (placeAtPc bs s).mem = s.mem.place s.pc bs := rfl
@[simp] theorem placeAtPc_pc (bs : List Byte) (s : State) : (placeAtPc bs s).pc = s.pc := rfl
@[simp] theorem placeAtPc_flags (bs : List Byte) (s : State) : (placeAtPc bs s).flags = s.flags := rfl
@[simp] theorem placeAtPc_run (bs : List Byte) (s : State) : (placeAtPc bs s).run = s.run := rfl
@[simp] theorem placeAtPc_out (bs : List Byte) (s : State) : (placeAtPc bs s).out = s.out := rfl
@[simp] theorem placeAtPc_diag (bs : List Byte) (s : State) : (placeAtPc bs s).diag = s.diag := rfl

/-! Register reads. -/

/-- A register holds what was last written to it. -/
@[simp] theorem State.setReg_reg_self (s : State) (i : Reg) (v : Byte) : (s.setReg i v).reg i = v := by
  simp [State.reg]

/-- A register write leaves the other registers. -/
theorem State.setReg_reg_ne (s : State) (v : Byte) {i j : Reg} (h : j ≠ i) : (s.setReg i v).reg j = s.reg j := by
  have h' : i.val ≠ j.val := fun e => h (Fin.ext e.symm)
  simp [State.reg, h']

/-- A register read after a register write. -/
theorem State.setReg_reg (s : State) (i j : Reg) (v : Byte) :
    (s.setReg i v).reg j = if j = i then v else s.reg j := by
  by_cases h : j = i
  · subst h; simp
  · simp [h, State.setReg_reg_ne]

/-- SP after a register write. -/
theorem State.setReg_sp (s : State) (i : Reg) (v : Byte) :
    (s.setReg i v).sp = if spIndex = i then v else s.sp := State.setReg_reg s i spIndex v

@[simp] theorem State.setSp_sp (s : State) (v : Byte) : (s.setSp v).sp = v := State.setReg_reg_self s spIndex v

@[simp] theorem State.push_sp (s : State) (v : Byte) : (s.push v).sp = s.sp - 1 := State.setSp_sp s (s.sp - 1)

@[simp] theorem State.pop_sp (s : State) : s.pop.sp = s.sp + 1 := State.setSp_sp s (s.sp + 1)

/-- A push writes its byte at the decremented SP. -/
@[simp] theorem State.push_mem (s : State) (v : Byte) : (s.push v).mem = s.mem.set (s.sp - 1).toNat v := by
  simp [State.push]

/-- A register read after a write of SP. -/
theorem State.setSp_reg (s : State) (v : Byte) (j : Reg) :
    (s.setSp v).reg j = if j = spIndex then v else s.reg j := State.setReg_reg s spIndex j v

/-- A register read after a push. -/
theorem State.push_reg (s : State) (v : Byte) (j : Reg) :
    (s.push v).reg j = if j = spIndex then s.sp - 1 else s.reg j := State.setSp_reg s (s.sp - 1) j

/-- A register read after a pop. -/
theorem State.pop_reg (s : State) (j : Reg) :
    s.pop.reg j = if j = spIndex then s.sp + 1 else s.reg j := State.setSp_reg s (s.sp + 1) j

/-- Two states with the same registers, memory, pc, flags, run state and events are one state. -/
theorem State.ext_fields {s t : State} (hr : ∀ i, s.reg i = t.reg i) (hm : s.mem = t.mem) (hp : s.pc = t.pc)
    (hf : s.flags = t.flags) (hu : s.run = t.run) (ho : s.out = t.out) (hd : s.diag = t.diag) : s = t := by
  cases s; cases t
  simp only [State.mk.injEq]
  refine ⟨Vector.ext fun i hi => ?_, hm, hp, hf, hu, ho, hd⟩
  exact hr ⟨i, hi⟩

end Sys2Proof.Machine
end

