-- ==== Sys2Proof/Laws/Operands.lean ====
section
/-!
SUPPORT. What the shared operations can do: a fault, the register checks, the ALU instructions, the store and the
branches. Each case lemma names every case.
-/

namespace Sys2Proof.Machine

/-- A fault is a next state that differs in the run state alone. -/
theorem raise_eq (info : FaultInfo) (s : State) :
    raise info s = .next { s with run := .faulted ⟨info.cause, s.pc, info⟩ } := rfl

/-- An operand below 8 passes the check. -/
theorem withReg_of_lt {rA : Byte} (h : rA.toNat < 8) (s : State) (go : Reg → Result) :
    withReg rA s go = go ⟨rA.toNat, h⟩ := by simp [withReg, h]

/-- An operand of 8 or more raises IndexOutOfBounds. -/
theorem withReg_of_le {rA : Byte} (h : 8 ≤ rA.toNat) (s : State) (go : Reg → Result) :
    withReg rA s go = raise (.register rA.toNat) s := by simp [withReg, Nat.not_lt.2 h]

/-- All that a register check can do. -/
theorem withReg_cases (rA : Byte) (s : State) (go : Reg → Result) :
    (∃ h : rA.toNat < 8, withReg rA s go = go ⟨rA.toNat, h⟩) ∨
      (8 ≤ rA.toNat ∧ withReg rA s go = raise (.register rA.toNat) s) := by
  rcases Nat.lt_or_ge rA.toNat 8 with h | h
  · exact .inl ⟨h, withReg_of_lt h s go⟩
  · exact .inr ⟨h, withReg_of_le h s go⟩

/-- Two operands below 8 pass the checks. -/
theorem withRegs_of_lt {rA rB : Byte} (ha : rA.toNat < 8) (hb : rB.toNat < 8) (s : State)
    (go : Reg → Reg → Result) : withRegs rA rB s go = go ⟨rA.toNat, ha⟩ ⟨rB.toNat, hb⟩ := by
  simp [withRegs, withReg_of_lt ha, withReg_of_lt hb]

/-- The first operand is the first checked. -/
theorem withRegs_of_le_left {rA : Byte} (ha : 8 ≤ rA.toNat) (rB : Byte) (s : State) (go : Reg → Reg → Result) :
    withRegs rA rB s go = raise (.register rA.toNat) s := withReg_of_le ha s _

/-- The second operand is checked when the first has passed. -/
theorem withRegs_of_le_right {rA rB : Byte} (ha : rA.toNat < 8) (hb : 8 ≤ rB.toNat) (s : State)
    (go : Reg → Reg → Result) : withRegs rA rB s go = raise (.register rB.toNat) s := by
  simp [withRegs, withReg_of_lt ha, withReg_of_le hb]

/-- All that two register checks can do. -/
theorem withRegs_cases (rA rB : Byte) (s : State) (go : Reg → Reg → Result) :
    (∃ (ha : rA.toNat < 8) (hb : rB.toNat < 8), withRegs rA rB s go = go ⟨rA.toNat, ha⟩ ⟨rB.toNat, hb⟩) ∨
      (∃ b : Byte, 8 ≤ b.toNat ∧ (b = rA ∨ b = rB) ∧ withRegs rA rB s go = raise (.register b.toNat) s) := by
  rcases Nat.lt_or_ge rA.toNat 8 with ha | ha
  · rcases Nat.lt_or_ge rB.toNat 8 with hb | hb
    · exact .inl ⟨ha, hb, withRegs_of_lt ha hb s go⟩
    · exact .inr ⟨rB, hb, .inr rfl, withRegs_of_le_right ha hb s go⟩
  · exact .inr ⟨rA, ha, .inl rfl, withRegs_of_le_left ha rB s go⟩

/-! The meanings on operands that pass their checks. -/

theorem execAdd_of_lt {rA rB : Byte} (ha : rA.toNat < 8) (hb : rB.toNat < 8) (s : State) :
    execAdd rA rB s =
      .next ((s.setReg ⟨rA.toNat, ha⟩ (s.reg ⟨rA.toNat, ha⟩ + s.reg ⟨rB.toNat, hb⟩)).advance 3) := by
  simp [execAdd, aluInstr, withRegs_of_lt ha hb, alu]

theorem execMul_of_lt {rA rB : Byte} (ha : rA.toNat < 8) (hb : rB.toNat < 8) (s : State) :
    execMul rA rB s =
      .next ((s.setReg ⟨rA.toNat, ha⟩ (s.reg ⟨rA.toNat, ha⟩ * s.reg ⟨rB.toNat, hb⟩)).advance 3) := by
  simp [execMul, aluInstr, withRegs_of_lt ha hb, alu]

theorem execCmp_of_lt {rA rB : Byte} (ha : rA.toNat < 8) (hb : rB.toNat < 8) (s : State) :
    execCmp rA rB s =
      .next ((s.setFlags (compareBytes (s.reg ⟨rA.toNat, ha⟩) (s.reg ⟨rB.toNat, hb⟩))).advance 3) := by
  simp [execCmp, aluInstr, withRegs_of_lt ha hb, alu]

theorem storeInstr_of_lt {rA rB : Byte} (ha : rA.toNat < 8) (hb : rB.toNat < 8) (n : Nat) (s : State) :
    storeInstr n rA rB s =
      .next ((s.store (s.reg ⟨rA.toNat, ha⟩) (s.reg ⟨rB.toNat, hb⟩)).advance n) := by
  simp [storeInstr, withRegs_of_lt ha hb]

theorem execLdi_of_lt {rA : Byte} (h : rA.toNat < 8) (imm : Byte) (s : State) :
    execLdi rA imm s = .next ((s.setReg ⟨rA.toNat, h⟩ imm).advance 3) := withReg_of_lt h s _

theorem execPrn_of_lt {rA : Byte} (h : rA.toNat < 8) (s : State) :
    execPrn rA s = .next ((s.emitPrint (s.reg ⟨rA.toNat, h⟩)).advance 2) := withReg_of_lt h s _

theorem execPush_of_lt {rA : Byte} (h : rA.toNat < 8) (s : State) :
    execPush rA s =
      .next (((s.setSp (s.sp - 1)).store (s.sp - 1) ((s.setSp (s.sp - 1)).reg ⟨rA.toNat, h⟩)).advance 2) := by
  simp [execPush, withReg_of_lt h]

theorem execPop_of_lt {rA : Byte} (h : rA.toNat < 8) (s : State) :
    execPop rA s = .next ((s.setReg ⟨rA.toNat, h⟩ s.popped).pop.advance 2) := withReg_of_lt h s _

theorem execCall_of_lt {rA : Byte} (h : rA.toNat < 8) {s : State} (hp : s.pc + 2 < 256) :
    execCall rA s =
      .next ((s.push (BitVec.ofNat 8 (s.pc + 2))).setPc
        (target ((s.push (BitVec.ofNat 8 (s.pc + 2))).reg ⟨rA.toNat, h⟩))) := by
  simp [execCall, withReg_of_lt h, Config.memSize, hp]

theorem execCall_of_le {rA : Byte} (h : rA.toNat < 8) {s : State} (hp : 256 ≤ s.pc + 2) :
    execCall rA s = raise (.memory (s.pc + 2)) s := by
  simp [execCall, withReg_of_lt h, Config.memSize, Nat.not_lt.2 hp]

theorem execJmp_of_lt {rA : Byte} (h : rA.toNat < 8) (s : State) :
    execJmp rA s = .next (s.setPc (target (s.reg ⟨rA.toNat, h⟩))) := withReg_of_lt h s _

theorem branch_of_lt {rA : Byte} (h : rA.toNat < 8) (cond : Bool) (s : State) :
    branch cond rA s = .next (if cond then s.setPc (target (s.reg ⟨rA.toNat, h⟩)) else s.advance 2) :=
  withReg_of_lt h s _

end Sys2Proof.Machine
end

