-- ==== Sys2Proof/Laws/Step.lean ====
section
/-!
SUPPORT. What a step can do, said once: the cases of the step, and that no instruction's meaning stops.
-/

namespace Sys2Proof.Machine

theorem State.memRead_of_lt {s : State} {a : Nat} (h : a < 256) : s.memRead a = some (s.mem.get a) := by
  simp [State.memRead, Config.memSize, h]

theorem State.memRead_of_le {s : State} {a : Nat} (h : 256 ≤ a) : s.memRead a = none := by
  simp [State.memRead, Config.memSize, Nat.not_lt.2 h]

/-- A read that succeeds is at an address below 256. -/
theorem State.lt_of_memRead {s : State} {a : Nat} {b : Byte} (h : s.memRead a = some b) : a < 256 := by
  by_contra hc
  rw [State.memRead_of_le (Nat.not_lt.1 hc)] at h
  cases h

/-- A read that fails is at 256 or above. -/
theorem State.le_of_memRead {s : State} {a : Nat} (h : s.memRead a = none) : 256 ≤ a := by
  by_contra hc
  rw [State.memRead_of_lt (Nat.not_le.1 hc)] at h
  cases h

/-- A fetched instruction lies in memory, and its opcode byte at pc names its operation. -/
theorem fetch_ok {s : State} {i : Instr} (h : fetch s = .ok i) :
    s.pc + i.length ≤ 256 ∧ ∃ op, s.memRead s.pc = some op ∧ opcodeMap.lookup op = some i.op := by
  rcases decodeFrom_cases opcodeMap fun k => s.memRead (s.pc + k) with
    ⟨j, op, e, h0, ho, hk⟩ | ⟨op, e, _⟩ | ⟨k, e, _⟩
  · obtain rfl : j = i := by rw [fetch, e] at h; cases h; rfl
    refine ⟨?_, op, h0, ho⟩
    have hl := Instr.length_eq j
    obtain ⟨b, hb⟩ := hk (j.length - 1) (by omega)
    have := State.lt_of_memRead hb
    omega
  · rw [fetch, e] at h; cases h
  · rw [fetch, e] at h; cases h

/-- An unknown opcode is the byte at pc, in memory and without a row. -/
theorem fetch_unknown {s : State} {op : Byte} (h : fetch s = .unknown op) :
    s.pc < 256 ∧ s.memRead s.pc = some op ∧ opcodeMap.lookup op = none := by
  rcases decodeFrom_cases opcodeMap fun k => s.memRead (s.pc + k) with
    ⟨j, op', e, _⟩ | ⟨op', e, h0, ho⟩ | ⟨k, e, _⟩
  · rw [fetch, e] at h; cases h
  · obtain rfl : op' = op := by rw [fetch, e] at h; cases h; rfl
    exact ⟨State.lt_of_memRead h0, h0, ho⟩
  · rw [fetch, e] at h; cases h

/-- A byte that is missing lies at 256 or above. -/
theorem fetch_missing {s : State} {k : Nat} (h : fetch s = .missing k) : 256 ≤ s.pc + k := by
  rcases decodeFrom_cases opcodeMap fun k => s.memRead (s.pc + k) with
    ⟨j, op', e, _⟩ | ⟨op', e, _⟩ | ⟨j, e, hj, _⟩
  · rw [fetch, e] at h; cases h
  · rw [fetch, e] at h; cases h
  · obtain rfl : j = k := by rw [fetch, e] at h; cases h; rfl
    exact State.le_of_memRead hj

/-- A Running state's step is what the fetch leads to. -/
theorem step_running {s : State} (h : s.run = .running) :
    step s = match fetch s with
      | .ok i => exec i s
      | .unknown op => unknownInstruction op s
      | .missing k => fetchFault k s := by
  obtain ⟨_, _, _, _, r, _, _⟩ := s
  obtain rfl : r = .running := h
  rfl

/-- There is no step from Halted. -/
theorem step_halted {s : State} (h : s.run = .halted) : step s = .fault .alreadyHalted := by simp [step, h]

/-- There is no step from Faulted. -/
theorem step_faulted {s : State} {r : FaultRecord} (h : s.run = .faulted r) : step s = .fault (.alreadyFaulted r) := by
  simp [step, h]

/-- All that a register check before a next state can do is answer a next state. -/
theorem withReg_next {rA : Byte} {s : State} {go : Reg → Result} (h : ∀ a, ∃ t, go a = .next t) :
    ∃ t, withReg rA s go = .next t := by
  rcases withReg_cases rA s go with ⟨hr, e⟩ | ⟨_, e⟩
  · exact e ▸ h _
  · exact ⟨_, e⟩

/-- An ALU instruction answers a next state, whatever the operation. -/
theorem aluInstr_next (op : AluOp) (rA rB : Byte) (s : State) : ∃ t, aluInstr op rA rB s = .next t := by
  unfold aluInstr withRegs
  refine withReg_next fun _ => withReg_next fun _ => ?_
  dsimp only
  split <;> exact ⟨_, rfl⟩

/-- A store answers a next state. -/
theorem storeInstr_next (n : Nat) (rA rB : Byte) (s : State) : ∃ t, storeInstr n rA rB s = .next t := by
  unfold storeInstr withRegs
  exact withReg_next fun _ => withReg_next fun _ => ⟨_, rfl⟩

/-- A branch answers a next state. -/
theorem branch_next (cond : Bool) (rA : Byte) (s : State) : ∃ t, branch cond rA s = .next t := by
  unfold branch
  exact withReg_next fun _ => ⟨_, rfl⟩

/-- CALL answers a next state. -/
theorem execCall_next (rA : Byte) (s : State) : ∃ t, execCall rA s = .next t := by
  unfold execCall
  refine withReg_next fun _ => ?_
  split <;> exact ⟨_, rfl⟩

/-- No instruction's meaning stops: each answers a next state from every state. -/
theorem exec_next (i : Instr) (s : State) : ∃ t, exec i s = .next t := by
  cases i with
  | hlt => exact ⟨_, rfl⟩
  | ret => exact ⟨_, rfl⟩
  | push a => simp only [exec, execPush]; exact withReg_next fun _ => ⟨_, rfl⟩
  | pop a => simp only [exec, execPop]; exact withReg_next fun _ => ⟨_, rfl⟩
  | prn a => simp only [exec, execPrn]; exact withReg_next fun _ => ⟨_, rfl⟩
  | call a => exact execCall_next a s
  | jmp a => simp only [exec, execJmp]; exact withReg_next fun _ => ⟨_, rfl⟩
  | jeq a => exact branch_next _ a s
  | jne a => exact branch_next _ a s
  | ldi a imm => simp only [exec, execLdi]; exact withReg_next fun _ => ⟨_, rfl⟩
  | st a b => exact storeInstr_next _ a b s
  | add a b => exact aluInstr_next .add a b s
  | mul a b => exact aluInstr_next .mul a b s
  | cmp a b => exact aluInstr_next .cmp a b s

/-- All that a step from a state to a next state can be: an instruction, a recovery or a fetch fault, from Running. -/
theorem step_cases {s t : State} (h : step s = .next t) :
    s.run = .running ∧
      ((∃ i, fetch s = .ok i ∧ exec i s = .next t) ∨
        (∃ op, fetch s = .unknown op ∧ t = (s.emitUnknown op).advance 1) ∨
        (∃ k, fetch s = .missing k ∧
          t = s.setRun (.faulted ⟨.indexOutOfBounds, s.pc, .memory (s.pc + k)⟩))) := by
  match hr : s.run with
  | .halted => rw [step_halted hr] at h; cases h
  | .faulted r => rw [step_faulted hr] at h; cases h
  | .running =>
    rw [step_running hr] at h
    refine ⟨rfl, ?_⟩
    match hf : fetch s with
    | .ok i => rw [hf] at h; exact .inl ⟨i, rfl, h⟩
    | .unknown op => rw [hf] at h; cases h; exact .inr (.inl ⟨op, rfl, rfl⟩)
    | .missing k => rw [hf] at h; cases h; exact .inr (.inr ⟨k, rfl, rfl⟩)

end Sys2Proof.Machine
end

