-- ==== Sys2Proof/Laws/Exec.lean ====
section
/-!
SUPPORT. All that an instruction can do, said once: it raises IndexOutOfBounds for a register operand, CALL raises it
for the return address, or the next state is the one written out here. And what the fetch reads where a word was placed.
-/

namespace Sys2Proof.Machine

/-- A fault of a register operand is the state that differs in the run state alone. -/
theorem raise_register (b : Byte) (s : State) :
    raise (.register b.toNat) s = .next (s.faultedWith (.register b.toNat)) := rfl

/-- A fault of a memory index is the state that differs in the run state alone. -/
theorem raise_memory (a : Nat) (s : State) : raise (.memory a) s = .next (s.faultedWith (.memory a)) := rfl

/-- The next state of an instruction that raises nothing, written out by the shared operations. -/
def Effect (i : Instr) (s t : State) : Prop :=
  match i with
  | .hlt => t = s.setRun .halted
  | .ret => t = s.pop.setPc (target s.popped)
  | .push a => ∃ h : a.toNat < 8,
      t = ((s.setSp (s.sp - 1)).store (s.sp - 1) ((s.setSp (s.sp - 1)).reg ⟨a.toNat, h⟩)).advance 2
  | .pop a => ∃ h : a.toNat < 8, t = (s.setReg ⟨a.toNat, h⟩ s.popped).pop.advance 2
  | .prn a => ∃ h : a.toNat < 8, t = (s.emitPrint (s.reg ⟨a.toNat, h⟩)).advance 2
  | .call a => ∃ h : a.toNat < 8, s.pc + 2 < 256 ∧
      t = (s.push (BitVec.ofNat 8 (s.pc + 2))).setPc
        (target ((s.push (BitVec.ofNat 8 (s.pc + 2))).reg ⟨a.toNat, h⟩))
  | .jmp a => ∃ h : a.toNat < 8, t = s.setPc (target (s.reg ⟨a.toNat, h⟩))
  | .jeq a => ∃ h : a.toNat < 8,
      t = if s.flags.e = true then s.setPc (target (s.reg ⟨a.toNat, h⟩)) else s.advance 2
  | .jne a => ∃ h : a.toNat < 8,
      t = if s.flags.e = true then s.advance 2 else s.setPc (target (s.reg ⟨a.toNat, h⟩))
  | .ldi a imm => ∃ h : a.toNat < 8, t = (s.setReg ⟨a.toNat, h⟩ imm).advance 3
  | .st a b => ∃ (h : a.toNat < 8) (h' : b.toNat < 8),
      t = (s.store (s.reg ⟨a.toNat, h⟩) (s.reg ⟨b.toNat, h'⟩)).advance 3
  | .add a b => ∃ (h : a.toNat < 8) (h' : b.toNat < 8),
      t = (s.setReg ⟨a.toNat, h⟩ (s.reg ⟨a.toNat, h⟩ + s.reg ⟨b.toNat, h'⟩)).advance 3
  | .mul a b => ∃ (h : a.toNat < 8) (h' : b.toNat < 8),
      t = (s.setReg ⟨a.toNat, h⟩ (s.reg ⟨a.toNat, h⟩ * s.reg ⟨b.toNat, h'⟩)).advance 3
  | .cmp a b => ∃ (h : a.toNat < 8) (h' : b.toNat < 8),
      t = (s.setFlags (compareBytes (s.reg ⟨a.toNat, h⟩) (s.reg ⟨b.toNat, h'⟩))).advance 3

/-- All that one register check can lead to. -/
theorem withReg_next_cases {rA : Byte} {s t : State} {go : Reg → Result} (h : withReg rA s go = .next t) :
    (∃ hr : rA.toNat < 8, go ⟨rA.toNat, hr⟩ = .next t) ∨ (8 ≤ rA.toNat ∧ t = s.faultedWith (.register rA.toNat)) := by
  rcases withReg_cases rA s go with ⟨hr, e⟩ | ⟨h8, e⟩
  · exact .inl ⟨hr, e ▸ h⟩
  · rw [e, raise_register] at h
    cases h
    exact .inr ⟨h8, rfl⟩

/-- All that two register checks can lead to. -/
theorem withRegs_next_cases {rA rB : Byte} {s t : State} {go : Reg → Reg → Result} (h : withRegs rA rB s go = .next t) :
    (∃ (ha : rA.toNat < 8) (hb : rB.toNat < 8), go ⟨rA.toNat, ha⟩ ⟨rB.toNat, hb⟩ = .next t) ∨
      (∃ b : Byte, (b = rA ∨ b = rB) ∧ 8 ≤ b.toNat ∧ t = s.faultedWith (.register b.toNat)) := by
  rcases withRegs_cases rA rB s go with ⟨ha, hb, e⟩ | ⟨b, h8, hm, e⟩
  · exact .inl ⟨ha, hb, e ▸ h⟩
  · rw [e, raise_register] at h
    cases h
    exact .inr ⟨b, hm, h8, rfl⟩

/-- All that an instruction can do: a register operand of 8 or more is raised, CALL's return address is raised, or the
effect happens. -/
theorem exec_cases {i : Instr} {s t : State} (h : exec i s = .next t) :
    (∃ b ∈ i.registerOperands, 8 ≤ b.toNat ∧ t = s.faultedWith (.register b.toNat)) ∨
      ((∃ a, i = .call a) ∧ 256 ≤ s.pc + 2 ∧ t = s.faultedWith (.memory (s.pc + 2))) ∨ Effect i s t := by
  have one {a : Byte} {go : Reg → Result} (ha : i.registerOperands = [a]) (hw : withReg a s go = .next t)
      (hgo : ∀ hr : a.toNat < 8, go ⟨a.toNat, hr⟩ = .next t →
        ((∃ a, i = .call a) ∧ 256 ≤ s.pc + 2 ∧ t = s.faultedWith (.memory (s.pc + 2))) ∨ Effect i s t) :
      (∃ b ∈ i.registerOperands, 8 ≤ b.toNat ∧ t = s.faultedWith (.register b.toNat)) ∨
        ((∃ a, i = .call a) ∧ 256 ≤ s.pc + 2 ∧ t = s.faultedWith (.memory (s.pc + 2))) ∨ Effect i s t := by
    rcases withReg_next_cases hw with ⟨hr, e⟩ | ⟨h8, e⟩
    · exact .inr (hgo hr e)
    · exact .inl ⟨a, by simp [ha], h8, e⟩
  have two {a b : Byte} {go : Reg → Reg → Result} (hab : i.registerOperands = [a, b])
      (hw : withRegs a b s go = .next t)
      (hgo : ∀ (ha : a.toNat < 8) (hb : b.toNat < 8), go ⟨a.toNat, ha⟩ ⟨b.toNat, hb⟩ = .next t → Effect i s t) :
      (∃ b ∈ i.registerOperands, 8 ≤ b.toNat ∧ t = s.faultedWith (.register b.toNat)) ∨
        ((∃ a, i = .call a) ∧ 256 ≤ s.pc + 2 ∧ t = s.faultedWith (.memory (s.pc + 2))) ∨ Effect i s t := by
    rcases withRegs_next_cases hw with ⟨ha, hb, e⟩ | ⟨c, hc, h8, e⟩
    · exact .inr (.inr (hgo ha hb e))
    · exact .inl ⟨c, by rcases hc with rfl | rfl <;> simp [hab], h8, e⟩
  cases i with
  | hlt => cases h; exact .inr (.inr rfl)
  | ret => cases h; exact .inr (.inr rfl)
  | push a =>
    rw [exec, execPush] at h
    exact one rfl h fun hr e => by cases e; exact .inr ⟨hr, by simp⟩
  | pop a =>
    rw [exec, execPop] at h
    exact one rfl h fun hr e => by cases e; exact .inr ⟨hr, rfl⟩
  | prn a =>
    rw [exec, execPrn] at h
    exact one rfl h fun hr e => by cases e; exact .inr ⟨hr, rfl⟩
  | call a =>
    rw [exec, execCall] at h
    refine one rfl h fun hr e => ?_
    split at e
    · next hp => cases e; exact .inr ⟨hr, hp, rfl⟩
    · next hp => rw [raise_memory] at e; cases e; exact .inl ⟨⟨a, rfl⟩, Nat.not_lt.1 hp, rfl⟩
  | jmp a =>
    rw [exec, execJmp] at h
    exact one rfl h fun hr e => by cases e; exact .inr ⟨hr, rfl⟩
  | jeq a =>
    rw [exec, execJeq, branch] at h
    exact one rfl h fun hr e => by cases e; exact .inr ⟨hr, rfl⟩
  | jne a =>
    rw [exec, execJne, branch] at h
    exact one rfl h fun hr e => by cases e; exact .inr ⟨hr, by cases s.flags.e <;> rfl⟩
  | ldi a imm =>
    rw [exec, execLdi] at h
    exact one rfl h fun hr e => by cases e; exact .inr ⟨hr, rfl⟩
  | st a b =>
    rw [exec, execSt, storeInstr] at h
    exact two rfl h fun ha hb e => by cases e; exact ⟨ha, hb, rfl⟩
  | add a b =>
    rw [exec, execAdd, aluInstr] at h
    exact two rfl h fun ha hb e => by cases e; exact ⟨ha, hb, rfl⟩
  | mul a b =>
    rw [exec, execMul, aluInstr] at h
    exact two rfl h fun ha hb e => by cases e; exact ⟨ha, hb, rfl⟩
  | cmp a b =>
    rw [exec, execCmp, aluInstr] at h
    exact two rfl h fun ha hb e => by cases e; exact ⟨ha, hb, rfl⟩

/-- A word placed at pc is what the next fetch decodes. -/
theorem fetch_withFetchWord {s : State} (nbits w : Nat) (hp : s.pc + 2 < 256) :
    fetch (s.withFetchWord nbits w) = decode (tableBytes nbits w) := by
  have read : ∀ k, k < 3 → (s.withFetchWord nbits w).memRead (s.pc + k) = (tableBytes nbits w)[k]? := by
    intro k hk
    rw [State.memRead_of_lt (by omega), State.withFetchWord, placeAtPc_mem,
      Memory.get_place _ _ _ _ (by simp only [Config.memSize]; omega)]
    have hl : (tableBytes nbits w).length = 3 := rfl
    rw [if_pos ⟨by omega, by omega⟩, Nat.add_sub_cancel_left, List.getD,
      List.getElem?_eq_getElem (show k < (tableBytes nbits w).length by omega)]
    rfl
  simp only [fetch, decode, decodeWith, decodeFrom, State.withFetchWord, placeAtPc_pc] at read ⊢
  simp only [read 0 (by decide), read 1 (by decide), read 2 (by decide)]

end Sys2Proof.Machine
end

