-- ==== Sys2Proof/Laws/Loader.lean ====
section
/-!
SUPPORT. What the loader's reading of a text can do: the lines of a text, and what one line gives.
-/

namespace Sys2Proof.Machine

/-- An image fits where it has at most 256 bytes. -/
@[simp] theorem imageFits_iff (image : List Byte) : imageFits image = true ↔ image.length ≤ 256 :=
  decide_eq_true_iff

/-- A line ends at its newline. -/
theorem splitLines_append_newline {l : List Char} (h : '\n' ∉ l) (rest : List Char) :
    splitLines (l ++ '\n' :: rest) = l :: splitLines rest := by
  induction l with
  | nil => simp [splitLines]
  | cons c l ih =>
    simp only [List.mem_cons, not_or] at h
    simp [splitLines, Ne.symm h.1, ih h.2]

/-- A text without a newline is one line. -/
theorem splitLines_of_not_mem {l : List Char} (h : '\n' ∉ l) : splitLines l = [l] := by
  induction l with
  | nil => rfl
  | cons c l ih =>
    simp only [List.mem_cons, not_or] at h
    simp [splitLines, Ne.symm h.1, ih h.2]

/-- The lines a text is made of are the lines it is split into. -/
theorem splitLines_intercalate {ls : List (List Char)} (hne : ls ≠ []) (h : ∀ l ∈ ls, '\n' ∉ l) :
    splitLines (['\n'].intercalate ls) = ls := by
  induction ls with
  | nil => exact absurd rfl hne
  | cons l ls ih =>
    cases ls with
    | nil => simpa [List.intercalate] using splitLines_of_not_mem (h l (by simp))
    | cons k ls =>
      have e : ['\n'].intercalate (l :: k :: ls) = l ++ '\n' :: ['\n'].intercalate (k :: ls) := by
        simp [List.intercalate]
      rw [e, splitLines_append_newline (h l (by simp)), ih (by simp) fun x hx => h x (List.mem_cons_of_mem _ hx)]

/-- No digit of a literal is white space, a comment sign or a newline. -/
theorem literal_isBit (b : Byte) : (literal b).all isBit = true := by revert b; decide

@[simp] theorem literal_length (b : Byte) : (literal b).length = 8 := rfl

/-- The value of a literal is its byte. -/
theorem bitsValue_literal (b : Byte) : BitVec.ofNat 8 (bitsValue (literal b)) = b := by revert b; decide

/-- Eight binary digits are the literal of the byte they give. -/
theorem literal_bitsValue {ds : List Char} (hl : ds.length = 8) (hb : ds.all isBit = true) :
    literal (BitVec.ofNat 8 (bitsValue ds)) = ds := by
  match ds, hl with
  | [a, b, c, d, e, f, g, h], _ =>
    have bit : ∀ x : Char, isBit x = true → x = '0' ∨ x = '1' := fun x hx => by simpa [isBit] using hx
    simp only [List.all_cons, List.all_nil, Bool.and_true, Bool.and_eq_true] at hb
    obtain ⟨ha, hb, hc, hd, he, hf, hg, hh⟩ := hb
    rcases bit a ha with rfl | rfl <;> rcases bit b hb with rfl | rfl <;> rcases bit c hc with rfl | rfl <;>
      rcases bit d hd with rfl | rfl <;> rcases bit e he with rfl | rfl <;> rcases bit f hf with rfl | rfl <;>
      rcases bit g hg with rfl | rfl <;> rcases bit h hh with rfl | rfl <;> decide

/-- What ends a literal, as R96 says it. -/
theorem endsLiteral_iff (cs : List Char) :
    endsLiteral cs = true ↔ ∀ c, cs.head? = some c → c.isWhitespace = true ∨ c = '#' := by
  cases cs <;> simp [endsLiteral]

/-- White space before a line's first other character is dropped. -/
theorem dropWhile_append {ws rest : List Char} (hw : ∀ c ∈ ws, c.isWhitespace = true) :
    (ws ++ rest).dropWhile Char.isWhitespace = rest.dropWhile Char.isWhitespace := by
  induction ws with
  | nil => rfl
  | cons c ws ih => simp [hw c (by simp), ih fun x hx => hw x (List.mem_cons_of_mem _ hx)]

/-- A line is the white space it begins with and what follows. -/
theorem line_eq (line : List Char) : ∃ ws, line = ws ++ line.dropWhile Char.isWhitespace ∧
    ∀ c ∈ ws, c.isWhitespace = true :=
  ⟨line.takeWhile Char.isWhitespace, (List.takeWhile_append_dropWhile).symm, fun _ hc => List.mem_takeWhile_imp hc⟩

/-- A line that holds a byte is read as that byte, one that holds none is ignored. -/
theorem parseLine_of_holds {line : List Char} {v : Option Byte} (h : LineHolds line v) :
    parseLine line = v.elim .ignored .byte := by
  cases v with
  | none =>
    obtain ⟨ws, rest, rfl, hw, hr⟩ := h
    rw [parseLine, dropWhile_append hw]
    cases rest with
    | nil => rfl
    | cons c cs => obtain rfl : c = '#' := hr c rfl; rfl
  | some b =>
    obtain ⟨ws, rest, rfl, hw, hr⟩ := h
    rw [Option.elim_some, parseLine, List.append_assoc, dropWhile_append hw]
    have hd : ∃ c cs, literal b = c :: cs ∧ c.isWhitespace = false ∧ c ≠ '#' := by
      rw [literal, List.map_cons]
      exact ⟨_, _, rfl, by split <;> decide, by split <;> decide⟩
    obtain ⟨c, cs, e, hc, hn⟩ := hd
    have hlen : (c :: cs).length = 8 := e ▸ literal_length b
    have ht : ((c :: cs) ++ rest).take 8 = c :: cs := by rw [← hlen]; exact List.take_left
    have hdrop : ((c :: cs) ++ rest).drop 8 = rest := by rw [← hlen]; exact List.drop_left
    have hall : (c :: cs).all isBit = true := e ▸ literal_isBit b
    rw [e, List.cons_append, List.dropWhile_cons_of_neg (by simp [hc])]
    rw [List.cons_append] at ht hdrop
    simp only [hn, if_false, ht, hdrop, hlen, hall, (endsLiteral_iff rest).2 hr]
    simp [← e, bitsValue_literal]

/-- A line that is not malformed holds what it is read as. -/
theorem holds_of_parseLine {line : List Char} (h : parseLine line ≠ .malformed) : ∃ v, LineHolds line v := by
  obtain ⟨ws, e, hw⟩ := line_eq line
  rw [parseLine] at h
  cases hd : line.dropWhile Char.isWhitespace with
  | nil => exact ⟨none, ws, [], by rw [e, hd], hw, by simp⟩
  | cons c cs =>
    by_cases hc : c = '#'
    · exact ⟨none, ws, c :: cs, by rw [← hd]; exact e, hw, by simpa using hc⟩
    · simp only [hd, hc, if_false] at h
      split at h
      · next hp =>
        simp only [Bool.and_eq_true, beq_iff_eq] at hp
        refine ⟨some (BitVec.ofNat 8 (bitsValue ((c :: cs).take 8))), ws, (c :: cs).drop 8, ?_, hw,
          (endsLiteral_iff _).1 hp.2⟩
        rw [literal_bitsValue hp.1.1 hp.1.2, List.append_assoc, List.take_append_drop, ← hd]
        exact e
      · exact absurd rfl h

/-- All that one line can be: it holds a byte and is read as it, it holds none and is ignored, or it holds neither and is
malformed. -/
theorem parseLine_cases (line : List Char) :
    (∃ b, LineHolds line (some b) ∧ parseLine line = .byte b) ∨ (LineHolds line none ∧ parseLine line = .ignored) ∨
      ((∀ v, ¬LineHolds line v) ∧ parseLine line = .malformed) := by
  by_cases h : ∃ v, LineHolds line v
  · obtain ⟨v, hv⟩ := h
    cases v with
    | none => exact .inr (.inl ⟨hv, parseLine_of_holds hv⟩)
    | some b => exact .inl ⟨b, hv, parseLine_of_holds hv⟩
  · refine .inr (.inr ⟨fun v hv => h ⟨v, hv⟩, ?_⟩)
    by_contra hm
    exact h (holds_of_parseLine hm)

end Sys2Proof.Machine
end

