-- ==== Sys2Proof/Laws/PerInstr.lean ====
section
/-!
SUPPORT. The family `Length`, per instruction: an instruction's encoding is as long as its format says, one to three
bytes (30_encoding.md R70, R74), and its register operands are the first of its operand bytes (R71).
-/

namespace Sys2Proof.Laws.Length

/-- The encoding has the instruction's length, between 1 and 3 bytes, and begins, after the opcode, with the register
operands. -/
def Statement (i : Instr) : Prop :=
  (encode i).length = i.length ∧ 1 ≤ i.length ∧ i.length ≤ 3 ∧ i.registerOperands <+: i.operandBytes

/-- No instruction is shorter than one byte. -/
theorem one_le (o : Op) : 1 ≤ o.length := by cases o <;> decide

/-- No instruction is longer than three bytes. -/
theorem le_three (o : Op) : o.length ≤ 3 := by cases o <;> decide

theorem hlt : Statement .hlt := ⟨rfl, one_le _, le_three _, List.prefix_rfl⟩
theorem ret : Statement .ret := ⟨rfl, one_le _, le_three _, List.prefix_rfl⟩
theorem push (rA : Byte) : Statement (.push rA) := ⟨rfl, one_le _, le_three _, List.prefix_rfl⟩
theorem pop (rA : Byte) : Statement (.pop rA) := ⟨rfl, one_le _, le_three _, List.prefix_rfl⟩
theorem prn (rA : Byte) : Statement (.prn rA) := ⟨rfl, one_le _, le_three _, List.prefix_rfl⟩
theorem call (rA : Byte) : Statement (.call rA) := ⟨rfl, one_le _, le_three _, List.prefix_rfl⟩
theorem jmp (rA : Byte) : Statement (.jmp rA) := ⟨rfl, one_le _, le_three _, List.prefix_rfl⟩
theorem jeq (rA : Byte) : Statement (.jeq rA) := ⟨rfl, one_le _, le_three _, List.prefix_rfl⟩
theorem jne (rA : Byte) : Statement (.jne rA) := ⟨rfl, one_le _, le_three _, List.prefix_rfl⟩
theorem ldi (rA imm : Byte) : Statement (.ldi rA imm) := ⟨rfl, one_le _, le_three _, ⟨[imm], rfl⟩⟩
theorem st (rA rB : Byte) : Statement (.st rA rB) := ⟨rfl, one_le _, le_three _, List.prefix_rfl⟩
theorem add (rA rB : Byte) : Statement (.add rA rB) := ⟨rfl, one_le _, le_three _, List.prefix_rfl⟩
theorem mul (rA rB : Byte) : Statement (.mul rA rB) := ⟨rfl, one_le _, le_three _, List.prefix_rfl⟩
theorem cmp (rA rB : Byte) : Statement (.cmp rA rB) := ⟨rfl, one_le _, le_three _, List.prefix_rfl⟩

end Sys2Proof.Laws.Length
end

