-- ==== Sys2Proof/Tests/Slice0.lean ====
section
/-!
SUPPORT. Tests of the model on small states, one step each, with expected results from the vectors of
spec/95_test_vectors.md (named in each comment) or by hand from a rule; the smoke tests of the well-formedness checks;
the decoding of every constructor from a word written out bit by bit; and, for every statement with hypotheses, a
witness that meets them.
-/

namespace Sys2Proof.Tests

open Sys2Proof.Machine

/-- A Running state at `pc` with some registers and with bytes at pc. -/
def mk (pc : Nat) (regs : List (Reg × Byte)) (bytes : List Byte) : State :=
  placeAtPc bytes (regs.foldl (fun s r => s.setReg r.1 r.2) (State.reset.setPc pc))

/-- A state with a byte more in memory. -/
def withByte (s : State) (a v : Byte) : State := s.store a v

/-- The next state, if there is one. -/
def next? (r : Result) : Option State :=
  match r with
  | .next t => some t
  | .fault _ => none
  | .refused _ => none

/-- The record of a memory index out of range. -/
def badMem (fpc a : Nat) : RunState := .faulted ⟨.indexOutOfBounds, fpc, .memory a⟩

/-- The record of a register index out of range. -/
def badReg (fpc i : Nat) : RunState := .faulted ⟨.indexOutOfBounds, fpc, .register i⟩

/-! Well-formedness: each check refuses a term that is ill formed for it alone. -/

theorem test_wf_default_map : opcodeMap.wellFormed = true := by decide
/-- Two rows for one byte. -/
theorem test_wf_refuses_a_byte_with_two_rows :
    OpcodeMap.wellFormed ((0x11, .hlt) :: opcodeMap.drop 1) = false := by decide
/-- No row for CMP. -/
theorem test_wf_refuses_a_missing_operation : OpcodeMap.wellFormed (opcodeMap.take 13) = false := by decide
/-- Two rows for HLT. -/
theorem test_wf_refuses_an_operation_with_two_rows :
    OpcodeMap.wellFormed ((0x00, .hlt) :: opcodeMap) = false := by decide
theorem test_wf_image_of_256_fits : imageFits (List.replicate 256 0x01) = true := by
  rw [imageFits, List.length_replicate]; decide
theorem test_wf_refuses_an_image_of_257 : imageFits (List.replicate 257 0x01) = false := by
  rw [imageFits, List.length_replicate]; decide

/-! Decoding: a word per constructor, from the binary column of 30_encoding.md R75. -/

theorem test_decode_hlt : decode [0b00000001] = .ok .hlt := by decide
theorem test_decode_ret : decode [0b00010001] = .ok .ret := by decide
theorem test_decode_push : decode [0b01000101, 0b00000111] = .ok (.push 7) := by decide
theorem test_decode_pop : decode [0b01000110, 0b00000110] = .ok (.pop 6) := by decide
theorem test_decode_prn : decode [0b01000111, 0b00000010] = .ok (.prn 2) := by decide
theorem test_decode_call : decode [0b01010000, 0b00000001] = .ok (.call 1) := by decide
theorem test_decode_jmp : decode [0b01010100, 0b00000011] = .ok (.jmp 3) := by decide
theorem test_decode_jeq : decode [0b01010101, 0b11111111] = .ok (.jeq 255) := by decide
theorem test_decode_jne : decode [0b01010110, 0b00000011] = .ok (.jne 3) := by decide
theorem test_decode_ldi : decode [0b10000010, 0b00000001, 0b00001001] = .ok (.ldi 1 9) := by decide
theorem test_decode_st : decode [0b10000100, 0b00000101, 0b00000000] = .ok (.st 5 0) := by decide
theorem test_decode_add : decode [0b10100000, 0b00000010, 0b00000011] = .ok (.add 2 3) := by decide
theorem test_decode_mul : decode [0b10100010, 0b00000000, 0b00000001] = .ok (.mul 0 1) := by decide
theorem test_decode_cmp : decode [0b10100111, 0b00000010, 0b00000011] = .ok (.cmp 2 3) := by decide
/-- XD3: LS-8's SUB is unmapped here, and takes one byte whatever follows. -/
theorem test_decode_unmapped : decode [0xA1, 0x00, 0x01] = .unknown 0xA1 := by decide
theorem test_decode_missing : decode [0x82, 0x00] = .missing 2 := by decide
/-- The examples of 30_encoding.md R80. -/
theorem test_encode_r80 : encode (.ldi 0 8) = [0x82, 0x00, 0x08] ∧ encode (.mul 0 1) = [0xA2, 0x00, 0x01] ∧
    encode (.prn 0) = [0x47, 0x00] ∧ encode .hlt = [0x01] := by decide
theorem test_table_word : decodeTableWord 24 0x080082 = some (.ldi 0 8) ∧ decodeTableWord 8 0x80082 = some (.ldi 0 0) ∧
    decodeTableWord 8 0x00 = none := by decide
/-- PRN R7 placed at reset: PR5. -/
theorem test_fetch_word_runs_first :
    (next? (step (State.reset.withFetchWord 16 0x0747))).map (fun t => (t.out, t.pc)) = some ([0xF4], 2) := by decide

/-! The step, unknown instructions and faults. -/

/-- XD1. -/
theorem test_unknown : (next? (step (mk 0x10 [] [0x00]))).map (fun t => (t.diag, t.pc, t.run)) =
    some ([(0x10, 0x00)], 0x11, .running) := by decide
/-- XD4: pc = 0x100, not 0. -/
theorem test_unknown_at_the_top : (next? (step (mk 0xFF [] [0x02]))).map (fun t => (t.diag, t.pc)) =
    some ([(0xFF, 0x02)], 0x100) := by decide
/-- XD5. -/
theorem test_fetch_past_memory : (next? (step (mk 0x100 [] []))).map (fun t => (t.run, t.pc)) =
    some (badMem 0x100 0x100, 0x100) := by decide
/-- XD6. -/
theorem test_operand_past_memory : (next? (step (mk 0xFE [(0, 0x33)] [0x82, 0x00]))).map (fun t => (t.run, t.reg 0)) =
    some (badMem 0xFE 0x100, 0x33) := by decide
/-- XD8: the first failing fetch is reported. -/
theorem test_first_operand_past_memory : (next? (step (mk 0xFF [] [0x82]))).map State.run =
    some (badMem 0xFF 0x100) := by decide
/-- XD10: rA before rB. -/
theorem test_first_register_checked_first : (next? (step (mk 0x20 [] [0xA0, 0x09, 0x0A]))).map State.run =
    some (badReg 0x20 9) := by decide
/-- XD12. -/
theorem test_no_step_from_halted : step ((mk 0 [] [0x01]).setRun .halted) = .fault .alreadyHalted := rfl

/-! The instructions. -/

/-- AD1. -/
theorem test_add : (next? (step (mk 0x10 [(0, 0x05), (1, 0x07)] [0xA0, 0, 1]))).map (fun t => (t.reg 0, t.pc)) =
    some (0x0C, 0x13) := by decide
/-- AD7: ADD to SP wraps. -/
theorem test_add_wraps_sp : (next? (step (mk 0 [(0, 0x0C)] [0xA0, 7, 0]))).map State.sp = some 0x00 := by decide
/-- ML1. -/
theorem test_mul : (next? (step (mk 6 [(0, 8), (1, 9)] [0xA2, 0, 1]))).map (fun t => (t.reg 0, t.pc)) =
    some (0x48, 9) := by decide
/-- ML3. -/
theorem test_mul_wraps : (next? (step (mk 0 [(0, 0xFF), (1, 0xFF)] [0xA2, 0, 1]))).map (State.reg · 0) =
    some 0x01 := by decide
/-- CP7: E is cleared. -/
theorem test_cmp_clears : (next? (step ((mk 0 [(0, 1), (1, 2)] [0xA7, 0, 1]).setFlags ⟨true, false, false⟩))).map
    (fun t => (t.flags, t.pc)) = some (⟨false, true, false⟩, 3) := by decide
/-- CP5: unsigned. -/
theorem test_cmp_unsigned : (next? (step (mk 0 [(0, 0x80), (1, 0x7F)] [0xA7, 0, 1]))).map State.flags =
    some ⟨false, false, true⟩ := by decide
/-- LD3. -/
theorem test_ldi_sp : (next? (step (mk 0 [] [0x82, 7, 0x80]))).map (fun t => (t.sp, t.pc)) = some (0x80, 3) := by decide
/-- LD5. -/
theorem test_ldi_bad_register : (next? (step (mk 0x30 [] [0x82, 0xFF, 0]))).map State.run =
    some (badReg 0x30 0xFF) := by decide
/-- SV4: a store to its own opcode byte. -/
theorem test_st_own_byte : (next? (step (mk 0x30 [(0, 0x30), (1, 1)] [0x84, 0, 1]))).map
    (fun t => (t.memRead 0x30, t.pc)) = some (some 0x01, 0x33) := by decide
/-- SV5: ST_PC_ADVANCE = 2. -/
theorem test_st_advance_two : (next? (storeInstr 2 5 0 (mk 0x17 [(5, 0x40), (0, 3)] [0x84, 5, 0]))).map
    (fun t => (t.memRead 0x40, t.pc)) = some (some 0x03, 0x19) := by decide
/-- PR1. -/
theorem test_prn : (next? (step (mk 9 [(0, 0x48)] [0x47, 0]))).map (fun t => (t.out, t.pc)) =
    some ([0x48], 0x0B) := by decide
/-- PU1. -/
theorem test_push : (next? (step (mk 0 [(0, 0x2A)] [0x45, 0]))).map (fun t => (t.sp, t.memRead 0xF3, t.pc)) =
    some (0xF3, some 0x2A, 2) := by decide
/-- PU4: R7 at SP = 0x00. -/
theorem test_push_sp_wraps : (next? (step (mk 0 [(7, 0)] [0x45, 7]))).map (fun t => (t.sp, t.memRead 0xFF)) =
    some (0xFF, some 0xFF) := by decide
/-- PO2. -/
theorem test_pop_wraps : (next? (step (withByte (mk 0 [(7, 0xFF)] [0x46, 1]) 0xFF 0x11))).map
    (fun t => (t.reg 1, t.sp, t.pc)) = some (0x11, 0x00, 2) := by decide
/-- PO3: POP R7. -/
theorem test_pop_sp : (next? (step (withByte (mk 0 [(7, 0xF3)] [0x46, 7]) 0xF3 0x10))).map State.sp =
    some 0x11 := by decide
/-- CL2: CALL R7. -/
theorem test_call_sp : (next? (step (mk 0x20 [] [0x50, 7]))).map (fun t => (t.sp, t.memRead 0xF3, t.pc)) =
    some (0xF3, some 0x22, 0xF3) := by decide
/-- CL3. -/
theorem test_call_at_the_top : (next? (step (mk 0xFE [] [0x50, 0]))).map (fun t => (t.run, t.sp)) =
    some (badMem 0xFE 0x100, 0xF4) := by decide
/-- RT2. -/
theorem test_ret_wraps : (next? (step (withByte (mk 0 [(7, 0xFF)] [0x11]) 0xFF 0x30))).map (fun t => (t.pc, t.sp)) =
    some (0x30, 0x00) := by decide
/-- JM3. -/
theorem test_jmp : (next? (step (mk 0 [] [0x54, 7]))).map State.pc = some 0xF4 := by decide
/-- JQ1. -/
theorem test_jeq : (next? (step ((mk 0x50 [(3, 0x20)] [0x55, 3]).setFlags ⟨true, false, false⟩))).map State.pc =
    some 0x20 := by decide
/-- JQ5: checked though not taken. -/
theorem test_jeq_bad_register : (next? (step (mk 0x50 [] [0x55, 9]))).map State.run = some (badReg 0x50 9) := by decide
/-- JN2. -/
theorem test_jne_not_taken : (next? (step ((mk 0x12 [(3, 0x0C)] [0x56, 3]).setFlags ⟨true, false, false⟩))).map
    State.pc = some 0x14 := by decide
/-- JN3: before the first compare. -/
theorem test_jne_at_reset_flags : (next? (step (mk 0x12 [(3, 0x0C)] [0x56, 3]))).map State.pc = some 0x0C := by decide
/-- HL1. -/
theorem test_hlt : (next? (step (mk 0x0B [] [0x01]))).map (fun t => (t.run, t.pc)) = some (.halted, 0x0B) := by decide

/-! The loader and the rendering. -/

/-- W8. -/
theorem test_image_line : parseLine "10000010 # LDI".toList = .byte 0x82 ∧ parseLine "# comment".toList = .ignored ∧
    parseLine "1000001".toList = .malformed ∧ parseLine "100000101".toList = .malformed := by decide
/-- The launch with INIT_REGS and INIT_MEM zero and an empty image is the reset state. -/
theorem test_zero_launch_is_reset : launch (fun _ => 0) (fun _ => 0) [] = some State.reset := by
  set_option maxRecDepth 20000 in decide
/-- PR4. -/
theorem test_render : renderPrint 0x0A = "hex val: a\tdec val: 10\n".toList := by decide

/-! Witnesses: states and operands that meet the hypotheses of the statements. -/

theorem test_witness_DecodeReadsBackEveryEncoding : ∃ m : OpcodeMap, m.wellFormed = true := ⟨opcodeMap, by decide⟩

theorem test_witness_DecodedBytesBeginWithTheEncoding : ∃ (m : OpcodeMap) (i : Instr) (bytes : List Byte),
    m.wellFormed = true ∧ decodeWith m bytes = .ok i :=
  ⟨opcodeMap, .ldi 7 0xFF, [0x82, 0x07, 0xFF, 0x00], by decide, by decide⟩

/-- A byte without a row; a byte with one and just enough operands; one operand short. -/
theorem test_witness_OpcodeByteAloneSelectsTheOperation :
    opcodeMap.lookup 0x00 = none ∧ opcodeMap.lookup 0x82 = some .ldi ∧
      Op.ldi.length ≤ ([0x00, 0x08] : List Byte).length + 1 ∧ ([0x00] : List Byte).length + 1 < Op.ldi.length := by
  decide

/-- The last place three bytes fit. -/
theorem test_witness_StepRunsTheDecodedInstruction : ∃ (s : State) (i : Instr) (bytes : List Byte),
    s.run = .running ∧ decode bytes = .ok i ∧ ∀ k, k < i.length → s.memRead (s.pc + k) = bytes[k]? :=
  ⟨mk 253 [] [0x82, 0x00, 0x07], .ldi 0 7, [0x82, 0x00, 0x07], by decide, by decide, by decide⟩

theorem test_witness_OpcodeFetchPastMemoryFaults : ∃ s : State, s.run = .running ∧ 256 ≤ s.pc :=
  ⟨mk 256 [] [], by decide, by decide⟩

/-- Length 3 at 253, length 2 at 254, length 1 at 255. -/
theorem test_witness_OperandBytesAreFetchedInOrder :
    (∃ (s : State) (b1 b2 : Byte), s.run = .running ∧ opcodeAtPc .ldi s ∧ s.memRead (s.pc + 1) = some b1 ∧
      s.memRead (s.pc + 2) = some b2) ∧
    (∃ (s : State) (b1 : Byte), s.run = .running ∧ opcodeAtPc .jmp s ∧ s.memRead (s.pc + 1) = some b1 ∧
      Op.jmp.length ≠ 3) ∧
    (∃ s : State, s.run = .running ∧ opcodeAtPc .ret s ∧ ¬2 ≤ Op.ret.length ∧ Op.ret.length ≠ 3) :=
  ⟨⟨mk 253 [] [0x82, 0x00, 0x07], 0x00, 0x07, by decide, ⟨0x82, by decide, by decide⟩, by decide, by decide⟩,
    ⟨mk 254 [] [0x54, 0x03], 0x03, by decide, ⟨0x54, by decide, by decide⟩, by decide, by decide⟩,
    ⟨mk 255 [] [0x11], by decide, ⟨0x11, by decide, by decide⟩, by decide, by decide⟩⟩

/-- `OperandFetchFaults` of an operation of length 2 or 3: its opcode at 255. -/
theorem test_witness_OperandFetchFaults_first (o : Op) (ho : 2 ≤ o.length) : ∃ (s : State) (k : Nat),
    s.run = .running ∧ opcodeAtPc o s ∧ 1 ≤ k ∧ k < o.length ∧ s.pc + k = Config.memSize :=
  ⟨mk 255 [] [opcodeMap.byteOf o], 1, by cases o <;> decide,
    ⟨opcodeMap.byteOf o, by cases o <;> decide, by cases o <;> decide⟩, by decide, ho, by cases o <;> decide⟩

/-- `OperandFetchFaults` of an operation of length 3: its opcode at 254. -/
theorem test_witness_OperandFetchFaults_second (o : Op) (ho : o.length = 3) : ∃ (s : State) (k : Nat),
    s.run = .running ∧ opcodeAtPc o s ∧ 1 ≤ k ∧ k < o.length ∧ s.pc + k = Config.memSize :=
  ⟨mk 254 [] [opcodeMap.byteOf o], 2, by cases o <;> decide,
    ⟨opcodeMap.byteOf o, by cases o <;> decide, by cases o <;> decide⟩, by decide, by omega, by cases o <;> decide⟩

/-- `HasFormat`: the default map has a row for every operation. -/
theorem test_witness_HasFormat (i : Instr) : ∃ (m : OpcodeMap) (op : Byte), m.lookup op = some i.op :=
  ⟨opcodeMap, opcodeMap.byteOf i.op, by cases i <;> rfl⟩

theorem test_witness_UnknownInstructionAdvancesByOne : ∃ (s : State) (op : Byte),
    s.run = .running ∧ s.memRead s.pc = some op ∧ opcodeMap.lookup op = none :=
  ⟨mk 255 [] [0x02], 0x02, by decide, by decide, by decide⟩

/-- An instruction, an unmapped byte and a fetch fault each give a step. -/
theorem test_witness_StepExistsExactlyWhenRunning :
    (∃ t, step (mk 0 [] [0x01]) = .next t) ∧ (∃ t, step State.reset = .next t) ∧ ∃ t, step (mk 256 [] []) = .next t :=
  ⟨⟨_, rfl⟩, ⟨_, rfl⟩, ⟨_, rfl⟩⟩

/-- The opcode fetch, a register operand and CALL's return address. -/
theorem test_witness_FaultingStepChangesOnlyTheRunState :
    (∃ t r, step (mk 256 [] []) = .next t ∧ t.run = .faulted r) ∧
      (∃ t r, step (mk 0x30 [] [0x82, 0x08, 0x01]) = .next t ∧ t.run = .faulted r) ∧
      ∃ t r, step (mk 254 [] [0x50, 0x00]) = .next t ∧ t.run = .faulted r :=
  ⟨⟨_, _, rfl, rfl⟩, ⟨_, _, rfl, rfl⟩, ⟨_, _, rfl, rfl⟩⟩

/-- rA alone, rA before rB, rB when rA passes; the bounds 8 and 255. -/
theorem test_witness_FirstBadRegisterOperandIsRaised :
    (Instr.call 8).registerOperands.find? (fun x => decide (8 ≤ x.toNat)) = some 8 ∧
      (Instr.add 9 10).registerOperands.find? (fun x => decide (8 ≤ x.toNat)) = some 9 ∧
      (Instr.st 7 255).registerOperands.find? (fun x => decide (8 ≤ x.toNat)) = some 255 := by decide

theorem test_witness_UnsupportedOperationIsUnreachable :
    (∃ rA rB : Byte, rA.toNat < 8 ∧ rB.toNat < 8) ∧
      ∃ s t r, step s = .next t ∧ t.run = .faulted r :=
  ⟨⟨7, 0, by decide, by decide⟩, ⟨mk 256 [] [], _, _, rfl, rfl⟩⟩

/-- Images of 0, 256 and 257 bytes. -/
theorem test_witness_LaunchStateIsAsTheResetTableSays :
    ([] : List Byte).length ≤ 256 ∧ (List.replicate 256 (0x01 : Byte)).length ≤ 256 ∧
      256 < (List.replicate 257 (0x01 : Byte)).length := by
  simp only [List.length_replicate, List.length_nil]; decide

theorem test_witness_EntryPointIsAddressZero : ∃ (initRegs : Fin 7 → Byte) (initMem : Nat → Byte) (image : List Byte)
    (s : State), launch initRegs initMem image = some s :=
  ⟨fun _ => 0x55, fun _ => 0xAA, [0x01], _, rfl⟩

/-- A comment line, W8's literal with a comment after it and a blank line; lines that hold nothing, one of them with a bare
byte too many; images of 3 and 257 bytes. -/
theorem test_witness_LoaderReadsBackTheImage :
    (∀ l ∈ ([("# program".toList, none), ("10000010 # LDI".toList, some 0x82), (" ".toList, none)] :
      List (List Char × Option Byte)), '\n' ∉ l.1 ∧ LineHolds l.1 l.2) ∧
      ('\n' ∉ "1000001".toList ∧ ∀ v, ¬LineHolds "1000001".toList v) ∧
      ('\n' ∉ "100000101".toList ∧ ∀ v, ¬LineHolds "100000101".toList v) ∧
      ([0x82, 0x00, 0x08] : List Byte).length ≤ 256 ∧ 256 < (List.replicate 257 (0x01 : Byte)).length := by
  refine ⟨?_, ⟨by decide, ?_⟩, ⟨by decide, ?_⟩, by decide, by rw [List.length_replicate]; decide⟩
  · simp only [List.forall_mem_cons]
    exact ⟨⟨by decide, [], _, rfl, by simp, fun c h => by cases h; decide⟩, ⟨by decide, [], " # LDI".toList, by decide, by simp,
      fun c h => by cases h; decide⟩,
      ⟨by decide, [' '], [], rfl, by simp, by simp⟩, by simp⟩
  · exact fun v hv => by cases v <;> exact absurd (parseLine_of_holds hv) (by rw [show parseLine _ = .malformed from by decide]; simp)
  · exact fun v hv => by cases v <;> exact absurd (parseLine_of_holds hv) (by rw [show parseLine _ = .malformed from by decide]; simp)

/-- The operand bounds of every statement about an instruction with one register operand: R0, R7 (SP), 8, 255. -/
theorem test_witness_one_register :
    (∃ rA : Byte, rA.toNat < 8 ∧ rA.toNat ≠ 7) ∧ (∃ rA : Byte, rA.toNat < 8 ∧ rA.toNat = 7) ∧
      (∃ rA : Byte, 8 ≤ rA.toNat ∧ rA.toNat = 8) ∧ ∃ rA : Byte, 8 ≤ rA.toNat ∧ rA.toNat = 255 :=
  ⟨⟨0, by decide⟩, ⟨7, by decide⟩, ⟨8, by decide⟩, ⟨255, by decide⟩⟩

/-- The operand bounds of every statement about an instruction with two register operands. -/
theorem test_witness_two_registers :
    (∃ rA rB : Byte, rA.toNat < 8 ∧ rB.toNat < 8) ∧ (∃ rA : Byte, 8 ≤ rA.toNat) ∧
      ∃ rA rB : Byte, rA.toNat < 8 ∧ 8 ≤ rB.toNat :=
  ⟨⟨7, 0, by decide⟩, ⟨8, by decide⟩, ⟨7, 8, by decide⟩⟩

theorem test_witness_StoreAdvanceTwoFetchesTheOperand : ∃ (s : State) (rA rB : Byte) (ha : rA.toNat < 8),
    rB.toNat < 8 ∧ s.memRead (s.pc + 2) = some rB ∧ (s.reg ⟨rA.toNat, ha⟩).toNat ≠ s.pc + 2 :=
  ⟨mk 0x17 [(5, 0x40), (0, 3)] [0x84, 5, 0], 5, 0, by decide, by decide, by decide, by decide⟩

/-- The last pc at which CALL completes and the first at which it does not. -/
theorem test_witness_CallPushesTheReturnAddress :
    (∃ (s : State) (rA : Byte), rA.toNat < 8 ∧ s.pc + 2 ≤ 255) ∧
      ∃ (s : State) (rA : Byte), rA.toNat < 8 ∧ 255 < s.pc + 2 :=
  ⟨⟨mk 253 [] [], 7, by decide, by decide⟩, ⟨mk 254 [] [], 7, by decide, by decide⟩⟩

/-- JM2: the jump to its own address. -/
theorem test_witness_JumpGoesToTheRegister : ∃ (s : State) (rA : Byte) (ha : rA.toNat < 8),
    s.run = .running ∧ fetch s = .ok (.jmp rA) ∧ (s.reg ⟨rA.toNat, ha⟩).toNat = s.pc :=
  ⟨mk 0x20 [(0, 0x20)] [0x54, 0x00], 0, by decide, by decide, by decide, by decide⟩

/-- JQ6. -/
theorem test_witness_JumpIfEqualReadsE : ∃ (s : State) (rA : Byte), rA.toNat < 8 ∧ s.run = .running ∧ s.pc = 0xFE ∧
    s.flags.e = false :=
  ⟨mk 0xFE [] [0x55, 0x00], 0, by decide, by decide, by decide, by decide⟩

theorem test_witness_HaltEndsTheRun : ∃ s t, exec .hlt s = .next t := ⟨State.reset, _, rfl⟩

/-- ADD R0, R1 neither writes nor reads R2, and does not write R1. -/
theorem test_witness_RegisterAccessTable : (∃ t, exec (.add 0 1) State.reset = .next t) ∧
    ¬writesReg (.add 0 1) 2 ∧ ¬readsReg (.add 0 1) 2 ∧ ¬writesReg (.add 0 1) 1 :=
  ⟨⟨_, rfl⟩, by simp [writesReg], by simp [readsReg], by simp [writesReg]⟩

/-- PUSH at reset stores to 0xF3 and nowhere else; POP reads 0xF4 and nothing else. -/
theorem test_witness_MemoryAccessTable : (∃ t, exec (.push 0) State.reset = .next t) ∧
    ¬storesAt (.push 0) State.reset 0xF4 ∧ ¬loadsFrom (.push 0) State.reset 0xF3 ∧
    (∃ t, exec (.pop 0) State.reset = .next t) ∧ ¬loadsFrom (.pop 0) State.reset 0xF3 := by
  refine ⟨⟨_, rfl⟩, ?_, by simp [loadsFrom], ⟨_, rfl⟩, ?_⟩
  · show ¬(0xF4 = (State.reset.sp - 1).toNat)
    decide
  · show ¬(0xF3 = State.reset.sp.toNat)
    decide

/-- A step that is no CMP, and a CMP that raises nothing. -/
theorem test_witness_FlagsAreWrittenOnlyByCompare :
    (∃ t, step (mk 0 [] [0x01]) = .next t ∧ ∀ rA rB, fetch (mk 0 [] [0x01]) ≠ .ok (.cmp rA rB)) ∧
      ∃ t, step (mk 0 [] [0xA7, 0, 1]) = .next t ∧ fetch (mk 0 [] [0xA7, 0, 1]) = .ok (.cmp 0 1) ∧ t.run = .running :=
  ⟨⟨_, rfl, fun rA rB => by rw [show fetch (mk 0 [] [0x01]) = .ok .hlt from by decide]; simp⟩, ⟨_, rfl, by decide, rfl⟩⟩

/-- A PRN, an unmapped byte and a HLT. -/
theorem test_witness_EventsAndRunStateFrame :
    (∃ t, step (mk 0 [] [0x47, 7]) = .next t ∧ fetch (mk 0 [] [0x47, 7]) = .ok (.prn 7) ∧ t.run = .running) ∧
      (∃ t, step State.reset = .next t ∧ fetch State.reset = .unknown 0x00) ∧
      ∃ t, step (mk 0 [] [0x01]) = .next t ∧ fetch (mk 0 [] [0x01]) = .ok .hlt :=
  ⟨⟨_, rfl, by decide, rfl⟩, ⟨_, rfl, by decide⟩, ⟨_, rfl, by decide⟩⟩

/-- An instruction that raises, and one that does not. -/
theorem test_witness_PcMovesAsTheTableSays : State.reset.run = .running ∧
    (∃ t r, exec (.jeq 8) State.reset = .next t ∧ t.run = .faulted r) ∧
      ∃ t, exec (.jeq 7) State.reset = .next t ∧ ∀ r, t.run ≠ .faulted r :=
  ⟨rfl, ⟨_, _, rfl, rfl⟩, ⟨_, rfl, fun r h => by cases h⟩⟩

theorem test_witness_LessAndGreaterAreNeverRead : ∃ s t, step s = .next t := ⟨State.reset, _, rfl⟩

/-- A renaming that moves R0 and R6 and keeps SP. -/
theorem test_witness_GeneralRegistersAreInterchangeable : ∃ (σ : Equiv.Perm Reg) (i : Instr) (s t : State),
    σ 7 = 7 ∧ σ 0 = 6 ∧ exec i s = .next t :=
  ⟨Equiv.swap 0 6, .ldi 0 5, State.reset, _, by decide, by decide, rfl⟩

/-- The state right after the CALL is one a RET may resume in. -/
theorem test_witness_ReturnResumesAfterTheCall : ∃ (s t u : State) (rA : Byte), rA.toNat < 8 ∧ s.pc + 2 ≤ 255 ∧
    exec (.call rA) s = .next t ∧ u.sp = t.sp ∧ u.memRead u.sp.toNat = t.memRead t.sp.toNat :=
  ⟨mk 253 [(1, 0x0C)] [0x50, 1], _, _, 1, by decide, by decide, rfl, rfl, rfl⟩

theorem test_witness_BranchAfterCompareDecidesEquality : ∃ rA rB rC : Byte,
    rA.toNat < 8 ∧ rB.toNat < 8 ∧ rC.toNat < 8 := ⟨7, 0, 7, by decide⟩

/-- P6: ST writes HLT over the next instruction; PUSH writes an unmapped byte where it goes on; CALL R7, and CALL of a
register that holds the decremented SP, go to the cell of the return address. -/
theorem test_witness_StoredOpcodeRunsInTheNextStep :
    (∃ (s : State) (rA rB : Byte) (ha : rA.toNat < 8), rB.toNat < 8 ∧ s.run = .running ∧
      (s.reg ⟨rA.toNat, ha⟩).toNat = s.pc + 3) ∧
    (∃ (s : State) (rA : Byte), rA.toNat < 8 ∧ s.run = .running ∧ (s.sp - 1).toNat = s.pc + 2) ∧
    (∃ (s : State) (rA : Byte), rA.toNat < 8 ∧ rA.toNat = 7 ∧ s.run = .running ∧ s.pc + 2 ≤ 255) ∧
    ∃ (s : State) (rA : Byte) (ha : rA.toNat < 8), rA.toNat ≠ 7 ∧ s.run = .running ∧ s.pc + 2 ≤ 255 ∧
      s.reg ⟨rA.toNat, ha⟩ = s.sp - 1 :=
  ⟨⟨mk 6 [(0, 9), (1, 1)] [0x84, 0, 1], 0, 1, by decide⟩, ⟨mk 0xF1 [] [0x45, 0], 0, by decide⟩,
    ⟨mk 253 [] [0x50, 7], 7, by decide⟩, ⟨mk 0x20 [(1, 0xF3)] [0x50, 1], 1, by decide⟩⟩

/-- `StepTakesOpcode`: a byte without a row, an instruction that fits and one that runs past 255. -/
theorem test_witness_StepTakesOpcode : opcodeMap.lookup 0x00 = none ∧ opcodeMap.lookup 0x82 = some .ldi ∧
    253 + Op.ldi.length ≤ 256 ∧ 256 < 254 + Op.ldi.length := by decide

theorem test_witness_StepKeepsTheInvariant : ∃ s t : State, s.Inv ∧ step s = .next t :=
  ⟨State.reset, _, by decide, rfl⟩

end Sys2Proof.Tests
end

section
/-!
SUPPORT. The flags of the state (10_state.md R32, R33): what each instruction leaves of them, and what CMP sets.
-/

namespace Sys2Proof.Machine

/-- The effect of an instruction other than CMP leaves the flags. -/
theorem Effect.flags_eq {i : Instr} {s t : State} (h : Effect i s t) (hi : ∀ rA rB, i ≠ .cmp rA rB) :
    t.flags = s.flags := by
  cases i with
  | hlt | ret => cases h; rfl
  | push a | pop a | prn a | jmp a | ldi a imm => obtain ⟨_, rfl⟩ := h; rfl
  | call a | st a b | add a b | mul a b => obtain ⟨_, _, rfl⟩ := h; rfl
  | jeq a | jne a => obtain ⟨_, rfl⟩ := h; split <;> rfl
  | cmp a b => exact absurd rfl (hi a b)

/-- An instruction other than CMP leaves the flags, also where it raises (10_state.md R33). -/
theorem exec_flags_eq {i : Instr} {s t : State} (h : exec i s = .next t) (hi : ∀ rA rB, i ≠ .cmp rA rB) :
    t.flags = s.flags := by
  obtain ⟨_, _, _, rfl⟩ | ⟨_, _, rfl⟩ | he := exec_cases h
  · rfl
  · rfl
  · exact he.flags_eq hi

/-- A CMP that raises nothing sets the flags to the comparison of its two registers (41_alu.md R123). -/
theorem exec_cmp_flags {rA rB : Byte} {s t : State} (h : exec (.cmp rA rB) s = .next t) (hr : t.run = .running) :
    ∃ (ha : rA.toNat < 8) (hb : rB.toNat < 8),
      t.flags = compareBytes (s.reg ⟨rA.toNat, ha⟩) (s.reg ⟨rB.toNat, hb⟩) := by
  obtain ⟨_, _, _, rfl⟩ | ⟨_, _, rfl⟩ | ⟨ha, hb, rfl⟩ := exec_cases h
  · cases hr
  · cases hr
  · exact ⟨ha, hb, rfl⟩

/-- A comparison sets exactly one flag: two bytes are equal, or one of them is the smaller. -/
theorem compareBytes_one_true (a b : Byte) :
    compareBytes a b = ⟨true, false, false⟩ ∨ compareBytes a b = ⟨false, true, false⟩ ∨
      compareBytes a b = ⟨false, false, true⟩ := by
  simp only [compareBytes, Flags.mk.injEq, BitVec.toNat_eq]
  obtain h | h | h := Nat.lt_trichotomy a.toNat b.toNat
  · right; left; simp [h, h.ne, h.le]
  · left; simp [h]
  · right; right; simp [h, h.ne', h.le]

/-- Settles O36, by the cases of the step: an instruction, a recovery or a fetch fault. -/
theorem flagsAreWrittenOnlyByCompare : Obligations.FlagsAreWrittenOnlyByCompare := by
  refine ⟨fun s t h hf => ?_, fun s t rA rB h hf hr => ?_⟩
  · obtain ⟨-, ⟨i, hi, he⟩ | ⟨_, -, rfl⟩ | ⟨_, -, rfl⟩⟩ := step_cases h
    · exact exec_flags_eq he fun rA rB e => hf rA rB (e ▸ hi)
    · rfl
    · rfl
  · obtain ⟨hs, -⟩ := step_cases h
    rw [step_running hs, hf] at h
    obtain ⟨_, _, e⟩ := exec_cmp_flags h hr
    exact e ▸ compareBytes_one_true _ _

end Sys2Proof.Machine
end

section
/-!
SUPPORT. Renaming the registers (10_state.md R24): how it passes through the state's operations, the register checks
and the meaning of each instruction. The operations of the stack need a renaming that keeps SP.
-/

namespace Sys2Proof.Machine

variable {σ : Equiv.Perm Reg}

/-! The operands. -/

theorem renameByte_of_le {b : Byte} (h : 8 ≤ b.toNat) : renameByte σ b = b := by
  simp [renameByte, Nat.not_lt.2 h]

theorem renameByte_toNat {b : Byte} (h : b.toNat < 8) : (renameByte σ b).toNat = (σ ⟨b.toNat, h⟩).val := by
  have := (σ ⟨b.toNat, h⟩).isLt
  simp only [renameByte, h, dite_true, BitVec.toNat_ofNat]
  omega

/-! The state's operations. -/

theorem renameState_reg (s : State) (r : Reg) : (renameState σ s).reg r = s.reg (σ.symm r) := by
  simp [renameState, State.reg]

@[simp] theorem renameState_reg_apply (s : State) (r : Reg) : (renameState σ s).reg (σ r) = s.reg r := by
  simp [renameState_reg]

@[simp] theorem renameState_setReg (s : State) (r : Reg) (v : Byte) :
    (renameState σ s).setReg (σ r) v = renameState σ (s.setReg r v) := by
  refine State.ext_fields (fun j => ?_) rfl rfl rfl rfl rfl rfl
  simp [renameState_reg, State.setReg_reg, Equiv.symm_apply_eq]

@[simp] theorem renameState_pc (s : State) : (renameState σ s).pc = s.pc := rfl

@[simp] theorem renameState_load (s : State) (a : Byte) : (renameState σ s).load a = s.load a := rfl

@[simp] theorem renameState_store (s : State) (a v : Byte) :
    (renameState σ s).store a v = renameState σ (s.store a v) := rfl

@[simp] theorem renameState_setPc (s : State) (n : Nat) :
    (renameState σ s).setPc n = renameState σ (s.setPc n) := rfl

@[simp] theorem renameState_advance (s : State) (n : Nat) :
    (renameState σ s).advance n = renameState σ (s.advance n) := rfl

@[simp] theorem renameState_setFlags (s : State) (f : Flags) :
    (renameState σ s).setFlags f = renameState σ (s.setFlags f) := rfl

@[simp] theorem renameState_emitPrint (s : State) (v : Byte) :
    (renameState σ s).emitPrint v = renameState σ (s.emitPrint v) := rfl

/-! The stack. -/

theorem renameState_sp (hσ : σ spIndex = spIndex) (s : State) : (renameState σ s).sp = s.sp := by
  have h := renameState_reg_apply (σ := σ) s spIndex
  rwa [hσ] at h

theorem renameState_setSp (hσ : σ spIndex = spIndex) (s : State) (v : Byte) :
    (renameState σ s).setSp v = renameState σ (s.setSp v) := by
  have h := renameState_setReg (σ := σ) s spIndex v
  rwa [hσ] at h

theorem renameState_push (hσ : σ spIndex = spIndex) (s : State) (v : Byte) :
    (renameState σ s).push v = renameState σ (s.push v) := by
  simp [State.push, renameState_sp hσ, renameState_setSp hσ]

theorem renameState_popped (hσ : σ spIndex = spIndex) (s : State) : (renameState σ s).popped = s.popped := by
  simp [State.popped, renameState_sp hσ]

theorem renameState_pop (hσ : σ spIndex = spIndex) (s : State) :
    (renameState σ s).pop = renameState σ s.pop := by
  simp [State.pop, renameState_sp hσ, renameState_setSp hσ]

/-! Results and the register checks. -/

/-- A result with the registers of its next state renamed. -/
def renameResult (σ : Equiv.Perm Reg) : Result → Result
  | .next t => .next (renameState σ t)
  | .fault f => .fault f
  | .refused r => .refused r

@[simp] theorem renameResult_next (t : State) : renameResult σ (.next t) = .next (renameState σ t) := rfl

@[simp] theorem raise_renameState (info : FaultInfo) (s : State) :
    raise info (renameState σ s) = renameResult σ (raise info s) := rfl

/-- A register check goes on with the renamed register; an operand that names none is not renamed and raises. -/
theorem withReg_rename (rA : Byte) (s : State) {go go' : Reg → Result}
    (h : ∀ r, go' (σ r) = renameResult σ (go r)) :
    withReg (renameByte σ rA) (renameState σ s) go' = renameResult σ (withReg rA s go) := by
  obtain ⟨ha, e⟩ | ⟨h8, e⟩ := withReg_cases rA s go
  · have ha' : (renameByte σ rA).toNat < 8 := by rw [renameByte_toNat ha]; exact Fin.isLt _
    have hr : (⟨(renameByte σ rA).toNat, ha'⟩ : Reg) = σ ⟨rA.toNat, ha⟩ := Fin.ext (renameByte_toNat ha)
    rw [withReg_of_lt ha', hr, h, e]
  · rw [renameByte_of_le h8, withReg_of_le h8, e, raise_renameState]

theorem withRegs_rename (rA rB : Byte) (s : State) {go go' : Reg → Reg → Result}
    (h : ∀ r q, go' (σ r) (σ q) = renameResult σ (go r q)) :
    withRegs (renameByte σ rA) (renameByte σ rB) (renameState σ s) go' = renameResult σ (withRegs rA rB s go) :=
  withReg_rename rA s fun r => withReg_rename rB s (h r)

/-! The meanings. -/

theorem aluInstr_rename (op : AluOp) (rA rB : Byte) (s : State) :
    aluInstr op (renameByte σ rA) (renameByte σ rB) (renameState σ s) = renameResult σ (aluInstr op rA rB s) :=
  withRegs_rename rA rB s fun r q => by cases op <;> simp [alu]

theorem storeInstr_rename (n : Nat) (rA rB : Byte) (s : State) :
    storeInstr n (renameByte σ rA) (renameByte σ rB) (renameState σ s) = renameResult σ (storeInstr n rA rB s) :=
  withRegs_rename rA rB s fun r q => by simp

theorem branch_rename (cond : Bool) (rA : Byte) (s : State) :
    branch cond (renameByte σ rA) (renameState σ s) = renameResult σ (branch cond rA s) :=
  withReg_rename rA s fun r => by cases cond <;> simp

theorem execPrn_rename (rA : Byte) (s : State) :
    execPrn (renameByte σ rA) (renameState σ s) = renameResult σ (execPrn rA s) :=
  withReg_rename rA s fun r => by simp

theorem execLdi_rename (rA imm : Byte) (s : State) :
    execLdi (renameByte σ rA) imm (renameState σ s) = renameResult σ (execLdi rA imm s) :=
  withReg_rename rA s fun r => by simp

theorem execJmp_rename (rA : Byte) (s : State) :
    execJmp (renameByte σ rA) (renameState σ s) = renameResult σ (execJmp rA s) :=
  withReg_rename rA s fun r => by simp

theorem execCall_rename (hσ : σ spIndex = spIndex) (rA : Byte) (s : State) :
    execCall (renameByte σ rA) (renameState σ s) = renameResult σ (execCall rA s) :=
  withReg_rename rA s fun r => by
    by_cases hp : s.pc + 2 < Config.memSize
    · simp [hp, renameState_push hσ]
    · simp [hp]

theorem execPush_rename (hσ : σ spIndex = spIndex) (rA : Byte) (s : State) :
    execPush (renameByte σ rA) (renameState σ s) = renameResult σ (execPush rA s) :=
  withReg_rename rA s fun r => by simp [renameState_sp hσ, renameState_setSp hσ]

theorem execPop_rename (hσ : σ spIndex = spIndex) (rA : Byte) (s : State) :
    execPop (renameByte σ rA) (renameState σ s) = renameResult σ (execPop rA s) :=
  withReg_rename rA s fun r => by simp [renameState_popped hσ, renameState_pop hσ]

theorem execRet_rename (hσ : σ spIndex = spIndex) (s : State) :
    execRet (renameState σ s) = renameResult σ (execRet s) := by
  simp [execRet, renameState_popped hσ, renameState_pop hσ]

/-- Execution commutes with a renaming that keeps SP, in every instruction (10_state.md R24). -/
theorem exec_rename (hσ : σ spIndex = spIndex) (i : Instr) (s : State) :
    exec (renameInstr σ i) (renameState σ s) = renameResult σ (exec i s) := by
  cases i with
  | hlt => rfl
  | ret => exact execRet_rename hσ s
  | push a => exact execPush_rename hσ a s
  | pop a => exact execPop_rename hσ a s
  | prn a => exact execPrn_rename a s
  | call a => exact execCall_rename hσ a s
  | jmp a => exact execJmp_rename a s
  | jeq a => exact branch_rename s.flags.e a s
  | jne a => exact branch_rename (!s.flags.e) a s
  | ldi a imm => exact execLdi_rename a imm s
  | st a b => exact storeInstr_rename stPcAdvance a b s
  | add a b => exact aluInstr_rename .add a b s
  | mul a b => exact aluInstr_rename .mul a b s
  | cmp a b => exact aluInstr_rename .cmp a b s

/-- Settles O40: exec commutes with the renaming, and a next state is renamed to a next state. -/
theorem generalRegistersAreInterchangeable : Obligations.GeneralRegistersAreInterchangeable := by
  intro σ i s t hσ h
  rw [exec_rename hσ i s, h, renameResult_next]

end Sys2Proof.Machine
end

section
/-!
SUPPORT. What the decoder answers for an opcode byte that has a row (30_encoding.md R72): an instruction of the row's
operation, or the first byte of the instruction's length that is not there. In a list the bytes are there up to its
length.
-/

namespace Sys2Proof

variable {m : OpcodeMap} {op : Byte} {o : Op}

/-- The decoder reads no byte beyond the length of the operation that the opcode byte names. -/
theorem lt_length_of_decodeFrom_missing {read : Nat → Option Byte} {k : Nat} (h0 : read 0 = some op)
    (ho : m.lookup op = some o) (h : decodeFrom m read = .missing k) : k < o.length := by
  simp only [decodeFrom, h0, ho] at h
  cases hf : o.format <;> simp only [hf] at h <;> rw [Op.length, hf, Format.length]
  case n => cases h
  case r => split at h <;> cases h; decide
  case rr | ri =>
    split at h
    · cases h; decide
    · split at h <;> cases h; decide

/-- A byte with a row decodes to an instruction of that row's operation, all of whose bytes are there, or to the first
byte that is not. -/
theorem decodeFrom_of_lookup {read : Nat → Option Byte} (h0 : read 0 = some op) (ho : m.lookup op = some o) :
    (∃ i, decodeFrom m read = .ok i ∧ i.op = o ∧ ∀ k, k < o.length → ∃ b, read k = some b) ∨
      ∃ k, decodeFrom m read = .missing k ∧ k < o.length ∧ read k = none ∧ ∀ j, j < k → ∃ b, read j = some b := by
  obtain ⟨i, op', e, h0', hi, hk⟩ | ⟨op', _, h0', hn⟩ | ⟨k, e, hk, hj⟩ := decodeFrom_cases m read
  · obtain rfl : op = op' := Option.some.inj (h0.symm.trans h0')
    obtain rfl : o = i.op := Option.some.inj (ho.symm.trans hi)
    exact .inl ⟨i, e, rfl, hk⟩
  · obtain rfl : op = op' := Option.some.inj (h0.symm.trans h0')
    cases ho.symm.trans hn
  · exact .inr ⟨k, e, lt_length_of_decodeFrom_missing h0 ho e, hk, hj⟩

/-- The bytes before `k` are all in a list just when the list is no shorter. -/
theorem forall_lt_exists_getElem?_iff {bytes : List Byte} {k : Nat} :
    (∀ j, j < k → ∃ b, bytes[j]? = some b) ↔ k ≤ bytes.length := by
  refine ⟨fun h => Nat.le_of_not_lt fun hk => ?_, fun h j hj => ⟨_, List.getElem?_eq_getElem (by omega)⟩⟩
  obtain ⟨b, hb⟩ := h _ hk
  simp at hb

/-- On a list the two answers are told apart by its length, and the missing byte is the one after its last. -/
theorem decodeWith_of_lookup (ho : m.lookup op = some o) (operands : List Byte) :
    (∃ i, decodeWith m (op :: operands) = .ok i ∧ i.op = o ∧ o.length ≤ operands.length + 1) ∨
      decodeWith m (op :: operands) = .missing (operands.length + 1) ∧ operands.length + 1 < o.length := by
  obtain ⟨i, e, hi, hk⟩ | ⟨k, e, hlt, hk, hj⟩ := decodeFrom_of_lookup (read := fun k => (op :: operands)[k]?) rfl ho
  · exact .inl ⟨i, e, hi, forall_lt_exists_getElem?_iff.1 hk⟩
  · obtain rfl : k = operands.length + 1 :=
      Nat.le_antisymm (forall_lt_exists_getElem?_iff.1 hj) (List.getElem?_eq_none_iff.1 hk)
    exact .inr ⟨e, hlt⟩

/-- A byte without a row decodes to the unknown instruction, whatever follows it. -/
theorem decodeWith_of_lookup_none (h : m.lookup op = none) (operands : List Byte) :
    decodeWith m (op :: operands) = .unknown op := by
  simp [decodeWith, decodeFrom, h]

/-- Settles O5, by the two answers to a byte with a row: each of its bounds on the operand bytes excludes one of them. -/
theorem opcodeByteAloneSelectsTheOperation : Obligations.OpcodeByteAloneSelectsTheOperation := by
  refine fun m op operands => ⟨fun h => decodeWith_of_lookup_none h operands, fun o ho => ?_⟩
  obtain ⟨i, e, hi, hle⟩ | ⟨e, hlt⟩ := decodeWith_of_lookup ho operands
  · exact ⟨fun _ => ⟨i, e, hi⟩, fun hlt => absurd hle (Nat.not_le.2 hlt)⟩
  · exact ⟨fun hle => absurd hle (Nat.not_le.2 hlt), fun _ => e⟩

end Sys2Proof
end

section
/-!
SUPPORT. The dispatch of a Running state (40_dispatch.md R100, R103): what the fetch answers where the operand bytes are
there and where they run past the memory, and that the step then has a next state.
-/

namespace Sys2Proof

/-- The operand bytes of a built instruction are the first of the bytes it is built from, as many as its format has. -/
theorem Op.operandBytes_build (o : Op) (b1 b2 : Byte) :
    (o.build b1 b2).operandBytes = [b1, b2].take (o.length - 1) := by cases o <;> rfl

/-- The decoder answers an instruction where it reads a byte that names its operation, then its operand bytes in order. -/
theorem decodeFrom_of_operandBytes {m : OpcodeMap} {read : Nat → Option Byte} {op : Byte} {i : Instr}
    (h0 : read 0 = some op) (ho : m.lookup op = some i.op)
    (hk : ∀ k, k < i.operandBytes.length → read (k + 1) = i.operandBytes[k]?) : decodeFrom m read = .ok i := by
  simp only [decodeFrom, h0, ho]
  cases i with
  | hlt | ret => rfl
  | push a | pop a | prn a | call a | jmp a | jeq a | jne a =>
    have h1 : read 1 = some a := hk 0 (Nat.zero_lt_succ _)
    simp [Instr.op, Op.format, Op.build, h1]
  | ldi a b | st a b | add a b | mul a b | cmp a b =>
    have h1 : read 1 = some a := hk 0 (Nat.zero_lt_succ _)
    have h2 : read 2 = some b := hk 1 Nat.one_lt_two
    simp [Instr.op, Op.format, Op.build, h1, h2]

namespace Machine

variable {s : State} {o : Op}

/-- The fetch builds the instruction of the operation at pc from the bytes after it, as many as its length asks for. -/
theorem fetch_of_operands {b1 b2 : Byte} (ho : opcodeAtPc o s) (h1 : 2 ≤ o.length → s.memRead (s.pc + 1) = some b1)
    (h2 : o.length = 3 → s.memRead (s.pc + 2) = some b2) : fetch s = .ok (o.build b1 b2) := by
  obtain ⟨op, h0, hl⟩ := ho
  refine decodeFrom_of_operandBytes h0 (by simpa using hl) fun k hk => ?_
  rw [Op.operandBytes_build] at hk ⊢
  have hlt : k < o.length - 1 ∧ k < 2 := by simpa using hk
  rw [List.getElem?_take_of_lt hlt.1]
  have hle := Laws.Length.le_three o
  match k with
  | 0 => exact h1 (by omega)
  | 1 => exact h2 (by omega)
  | _ + 2 => omega

/-- Where byte `k` of the instruction at pc is the one at address 256, it is the first that the fetch misses. -/
theorem fetch_of_past_memory {k : Nat} (ho : opcodeAtPc o s) (hk : k < o.length) (h256 : s.pc + k = 256) :
    fetch s = .missing k := by
  obtain ⟨op, h0, hl⟩ := ho
  obtain ⟨i, -, -, hread⟩ | ⟨j, e, -, hnone, hsome⟩ :=
    decodeFrom_of_lookup (read := fun k => s.memRead (s.pc + k)) h0 hl
  · obtain ⟨b, hb⟩ := hread k hk
    have := State.lt_of_memRead hb
    omega
  · have hj : 256 ≤ s.pc + j := State.le_of_memRead hnone
    have hkj : ¬k < j := fun hlt => by
      obtain ⟨b, hb⟩ := hsome k hlt
      have := State.lt_of_memRead hb
      omega
    obtain rfl : j = k := by omega
    exact e

/-- Settles O8, by what the fetch answers in each of the two cases. -/
theorem operandBytesAreFetchedInOrder : Obligations.OperandBytesAreFetchedInOrder := by
  refine fun o => ⟨fun s b1 b2 hr ho h1 h2 => ⟨o.build b1 b2, o.op_build b1 b2, o.operandBytes_build b1 b2, ?_⟩,
    fun s k hr ho _ hk h256 => ?_⟩
  · rw [step_running hr, fetch_of_operands ho h1 h2]
  · rw [step_running hr, fetch_of_past_memory ho hk h256]
    exact raise_eq _ s

/-- Whatever the fetch of a Running state answers, the step has a next state. -/
theorem step_next (hr : s.run = .running) : ∃ t, step s = .next t := by
  rw [step_running hr]
  cases fetch s with
  | ok i => exact exec_next i s
  | unknown op => exact ⟨_, rfl⟩
  | missing k => exact ⟨_, rfl⟩

/-- Settles O10: `step_next` gives the successor, and `step_cases` says where one comes from. -/
theorem stepExistsExactlyWhenRunning : Obligations.StepExistsExactlyWhenRunning := by
  refine ⟨fun s => ⟨fun ⟨t, ht, _⟩ => ?_, fun hr => ?_⟩, fun s t h => ?_⟩
  · obtain ⟨hr, -⟩ := step_cases ht
    exact hr
  · obtain ⟨t, ht⟩ := step_next hr
    exact ⟨t, ht, fun u hu => Host.Outcome.next.inj (hu.symm.trans ht)⟩
  · obtain ⟨-, hi | ⟨op, hf, rfl⟩ | ⟨k, hf, rfl⟩⟩ := step_cases h
    · exact .inl hi
    · exact .inr (.inl ⟨op, hf, rfl⟩)
    · exact .inr (.inr ⟨k, hf, rfl⟩)

end Machine

end Sys2Proof
end

section
/-!
SUPPORT. Load immediate and print (42_load_store_io.md R141, R143), and what every instruction has for its completion: its
format and the fault of its operand fetch.
-/

namespace Sys2Proof.Machine

/-- Every instruction has its operand bytes for its format (30_encoding.md R71). -/
theorem hasFormat_operandBytes (i : Instr) : HasFormat i i.operandBytes := by
  intro m op rest ho
  refine decodeFrom_of_operandBytes rfl ho fun k hk => ?_
  rw [List.getElem?_cons_succ, List.getElem?_append_left hk]

/-- An operand byte past 255 faults the fetch of every operation (40_dispatch.md R103). -/
theorem operandFetchFaults (o : Op) : OperandFetchFaults o := (operandBytesAreFetchedInOrder o).2

/-- Settles O21: past its check LDI is a register write and an advance, which `setReg` and `advance` describe. -/
theorem loadImmediateWritesTheByte : Obligations.LoadImmediateWritesTheByte := by
  refine ⟨fun s rA imm ha => ⟨_, execLdi_of_lt ha imm s, ?_, fun r hr => ?_, rfl, rfl, rfl, rfl, rfl, rfl⟩,
    fun s rA imm ha => ?_, operandFetchFaults .ldi, fun rA imm => hasFormat_operandBytes (.ldi rA imm)⟩
  · rw [State.advance_reg, State.setReg_reg_self]
  · rw [State.advance_reg, State.setReg_reg_ne s imm (Fin.ne_of_val_ne hr)]
  · rw [exec, execLdi, withReg_of_le ha, raise_register]

/-- Settles O24: past its check PRN is a print event and an advance, which leave all but `out` and `pc`. -/
theorem printAppendsTheRegister : Obligations.PrintAppendsTheRegister := by
  refine ⟨fun s rA ha => ⟨_, execPrn_of_lt ha s, rfl, rfl, fun _ => rfl, rfl, rfl, rfl, rfl⟩,
    fun s rA ha => ?_, operandFetchFaults .prn, fun rA => hasFormat_operandBytes (.prn rA)⟩
  rw [exec, execPrn, withReg_of_le ha, raise_register]

end Sys2Proof.Machine
end

section
/-!
SUPPORT. The push and pop primitives (43_stack.md R161, R162): what memory reads at a byte address and after a store, and
how SP wraps.
-/

namespace Sys2Proof.Machine

/-- A read at a byte address is never out of bounds (20_memory.md R52). -/
theorem State.memRead_toNat (s : State) (a : Byte) : s.memRead a.toNat = some (s.load a) :=
  State.memRead_of_lt a.isLt

/-- A read at an address that a store has just written. -/
theorem State.store_memRead_self (s : State) (a v : Byte) : (s.store a v).memRead a.toNat = some v := by
  rw [State.memRead_toNat, State.load, State.store_mem, Memory.get_set_self]

/-- A store leaves the reads at every other address. -/
theorem State.store_memRead_ne (s : State) (v : Byte) {a : Byte} {j : Nat} (h : j ≠ a.toNat) :
    (s.store a v).memRead j = s.memRead j := by
  rw [State.memRead, State.store_mem, Memory.get_set_ne s.mem v h, State.memRead]

/-- A push is a write of the decremented SP, then a store there. -/
theorem State.push_eq (s : State) (v : Byte) : s.push v = (s.setSp (s.sp - 1)).store (s.sp - 1) v := by
  rw [State.push, State.setSp_sp]

/-- The decrement of a byte wraps modulo 256 (43_stack.md R161). -/
theorem toNat_sub_one (b : Byte) : (b - 1).toNat = (b.toNat + 255) % 256 := by
  rw [BitVec.toNat_sub, Nat.add_comm]; rfl

/-- The increment of a byte wraps modulo 256 (43_stack.md R162). -/
theorem toNat_add_one (b : Byte) : (b + 1).toNat = (b.toNat + 1) % 256 := BitVec.toNat_add b 1

/-- A push leaves every register but SP. -/
theorem State.push_reg_ne (s : State) (v : Byte) {r : Reg} (h : r ≠ spIndex) : (s.push v).reg r = s.reg r := by
  rw [State.push_reg, if_neg h]

/-- A pop leaves every register but SP. -/
theorem State.pop_reg_ne (s : State) {r : Reg} (h : r ≠ spIndex) : s.pop.reg r = s.reg r := by
  rw [State.pop_reg, if_neg h]

/-- A push leaves its byte at the decremented SP. -/
theorem State.push_memRead_self (s : State) (v : Byte) : (s.push v).memRead (s.sp - 1).toNat = some v := by
  rw [State.push_eq, State.store_memRead_self]

/-- A push leaves the reads at every address but the decremented SP. -/
theorem State.push_memRead_ne (s : State) (v : Byte) {a : Nat} (h : a ≠ (s.sp - 1).toNat) :
    (s.push v).memRead a = s.memRead a := by
  rw [State.push_eq, State.store_memRead_ne _ v h]
  rfl

/-- Settles O27: a push is a write of SP and a store there, a pop a read and a write of SP, and SP wraps as a byte does. -/
theorem pushAndPopPrimitives : Obligations.PushAndPopPrimitives := by
  refine ⟨fun s v => ?_, fun s => ⟨s.memRead_toNat s.sp, ?_, fun r => s.pop_reg_ne, s.pop_mem, s.pop_run⟩⟩
  · rw [State.push_sp]
    exact ⟨toNat_sub_one s.sp, s.push_memRead_self v, fun a => s.push_memRead_ne v, fun r => s.push_reg_ne v,
      s.push_run v⟩
  · rw [State.pop_sp, toNat_add_one]

end Sys2Proof.Machine
end

section
/-!
SUPPORT. The control transfers (44_control.md R183 to R186): where a branch goes, that a state which steps to itself never
ends, and the opcode fetch past the memory.
-/

namespace Sys2Proof.Machine

variable {s : State}

/-- A branch past its check writes the pc alone: the target where it is taken, else the address after it. -/
theorem branch_setPc {rA : Byte} (h : rA.toNat < 8) (cond : Bool) (s : State) :
    branch cond rA s = .next (s.setPc (if cond then (s.reg ⟨rA.toNat, h⟩).toNat else s.pc + 2)) := by
  rw [branch_of_lt h]
  cases cond <;> rfl

/-- A branch checks its register operand whether it is taken or not. -/
theorem branch_of_le {rA : Byte} (h : 8 ≤ rA.toNat) (cond : Bool) (s : State) :
    branch cond rA s = .next (s.faultedWith (.register rA.toNat)) := by
  rw [branch, withReg_of_le h, raise_register]

/-- A state that steps to itself is where any number of steps leads. -/
theorem stepN_of_step_self (h : step s = .next s) (n : Nat) : stepN n s = .next s := by
  induction n with
  | zero => rfl
  | succ n ih => rw [stepN, h]; exact ih

/-- A state that steps to itself runs forever (40_dispatch.md R107). -/
theorem runsForever_of_step_self (h : step s = .next s) : RunsForever s := by
  obtain ⟨hr, -⟩ := step_cases h
  exact fun n => ⟨s, stepN_of_step_self h n, hr⟩

/-- At 256 and above the opcode fetch faults with the pc as the address (40_dispatch.md R101). -/
theorem step_of_le_pc (hr : s.run = .running) (hp : 256 ≤ s.pc) : step s = .next (s.faultedWith (.memory s.pc)) := by
  have hf : fetch s = .missing 0 := by
    rw [fetch, decodeFrom, Nat.add_zero, State.memRead_of_le hp]
  rw [step_running hr, hf]
  exact raise_memory s.pc s

/-- Settles O29: RET is a pop and a write of the pc, and the pop moves SP and no other register. -/
theorem returnPopsThePc : Obligations.ReturnPopsThePc := by
  refine ⟨fun s => ⟨_, _, rfl, s.memRead_toNat s.sp, rfl, ?_, fun r => s.pop_reg_ne, rfl, rfl, rfl, rfl, rfl⟩,
    hasFormat_operandBytes .ret⟩
  rw [State.setPc_sp, State.pop_sp, toNat_add_one]

/-- Settles O30: JMP is a write of the pc, so a jump to its own address is a step to the same state. -/
theorem jumpGoesToTheRegister : Obligations.JumpGoesToTheRegister := by
  refine ⟨fun s rA ha => execJmp_of_lt ha s, fun s rA ha => ?_, operandFetchFaults .jmp,
    fun rA => hasFormat_operandBytes (.jmp rA), fun s rA ha hr hf hself => runsForever_of_step_self ?_⟩
  · rw [exec, execJmp, withReg_of_le ha, raise_register]
  · rw [step_running hr, hf]
    exact (execJmp_of_lt ha s).trans (by rw [target, hself]; rfl)

/-- Settles O31: JEQ is the branch on E, and not taken at 0xFE it goes to 0x100, where the opcode fetch faults. -/
theorem jumpIfEqualReadsE : Obligations.JumpIfEqualReadsE := by
  refine ⟨fun s rA ha => branch_setPc ha s.flags.e s, fun s rA ha => branch_of_le ha s.flags.e s,
    operandFetchFaults .jeq, fun rA => hasFormat_operandBytes (.jeq rA), fun s rA ha hr hp he => ?_⟩
  have hpc : (s.advance 2).pc = 0x100 := by rw [State.advance_pc, hp]
  refine ⟨s.advance 2, ?_, hpc, hpc ▸ step_of_le_pc hr hpc.ge⟩
  rw [exec, execJeq, branch_of_lt ha, he]
  rfl

/-- Settles O32: JNE is the branch on the complement of E. -/
theorem jumpIfNotEqualReadsE : Obligations.JumpIfNotEqualReadsE := by
  refine ⟨fun s rA ha => (branch_setPc ha (!s.flags.e) s).trans ?_, fun s rA ha => branch_of_le ha (!s.flags.e) s,
    operandFetchFaults .jne, fun rA => hasFormat_operandBytes (.jne rA)⟩
  cases s.flags.e <;> rfl

end Sys2Proof.Machine
end

section
/-!
SUPPORT. The launch (70_reset_and_hazards.md R240, R241): which launches take a first step, and from which state.
-/

namespace Sys2Proof.Machine

/-- A launch takes its first step where the image fits, from the reset state with its registers and memory set
(30_encoding.md R96). -/
theorem launch_eq_some_iff {initRegs : Fin 7 → Byte} {initMem : Nat → Byte} {image : List Byte} {s : State} :
    launch initRegs initMem image = some s ↔ image.length ≤ 256 ∧
      { State.reset with regs := launchRegs initRegs, mem := launchMem initMem image } = s := by
  rw [launch, Option.ite_none_right_eq_some, imageFits_iff, Option.some_inj]

/-- Settles O16: a launch sets the registers and the memory of the reset state, and leaves its pc and run state. -/
theorem entryPointIsAddressZero : Obligations.EntryPointIsAddressZero := by
  refine ⟨⟨rfl, rfl⟩, fun initRegs initMem image s h => ?_⟩
  obtain ⟨-, rfl⟩ := launch_eq_some_iff.mp h
  exact ⟨rfl, rfl⟩

end Sys2Proof.Machine
end

section
/-!
SUPPORT. The decoder answers an instruction exactly where its encoding stands (30_encoding.md R71, R72, R77, R80): an
opcode byte that names its operation, then its operand bytes; and a well-formed map has one byte for each operation.
-/

namespace Sys2Proof

variable {m : OpcodeMap} {op : Byte} {o : Op} {i : Instr}

/-- The decoder reads no operand byte it does not put in the instruction: those it puts there are the bytes it read.
-/
theorem operandBytes_of_decodeFrom {read : Nat → Option Byte} (h0 : read 0 = some op) (ho : m.lookup op = some i.op)
    (h : decodeFrom m read = .ok i) {k : Nat} (hk : k < i.operandBytes.length) :
    read (k + 1) = i.operandBytes[k]? := by
  simp only [decodeFrom, h0, ho] at h
  cases i with
  | hlt | ret => cases hk
  | push a | pop a | prn a | call a | jmp a | jeq a | jne a =>
    obtain rfl : k = 0 := Nat.lt_one_iff.1 hk
    simp only [Instr.op, Op.format] at h
    split at h
    · cases h
    · next h1 => cases h; exact h1
  | ldi a b | st a b | add a b | mul a b | cmp a b =>
    simp only [Instr.op, Op.format] at h
    split at h
    · cases h
    · next h1 =>
      split at h
      · cases h
      · next h2 =>
        cases h
        match k with
        | 0 => exact h1
        | 1 => exact h2

/-- The decoder answers an instruction exactly where it reads a byte that names its operation, then its operand bytes.
-/
theorem decodeFrom_eq_ok_iff {read : Nat → Option Byte} :
    decodeFrom m read = .ok i ↔ ∃ op, read 0 = some op ∧ m.lookup op = some i.op ∧
      ∀ k, k < i.operandBytes.length → read (k + 1) = i.operandBytes[k]? := by
  refine ⟨fun h => ?_, fun ⟨op, h0, ho, hk⟩ => decodeFrom_of_operandBytes h0 ho hk⟩
  obtain ⟨j, op, e, h0, ho, -⟩ | ⟨op, e, -⟩ | ⟨k, e, -⟩ := decodeFrom_cases m read
  · obtain rfl : j = i := Decoded.ok.inj (e.symm.trans h)
    exact ⟨op, h0, ho, fun k hk => operandBytes_of_decodeFrom h0 ho h hk⟩
  · cases e.symm.trans h
  · cases e.symm.trans h

/-- In a well-formed map the byte that looks an operation up is the one that encodes it: its row is the only one. -/
theorem OpcodeMap.eq_byteOf_of_lookup (hm : m.wellFormed = true) (h : m.lookup op = some o) : op = m.byteOf o := by
  have hn : (m.map Prod.snd).Nodup := List.nodup_iff_count_le_one.2 fun o => ((m.wellFormed_iff.1 hm).2 o).le
  have hb : (m.byteOf o, o) ∈ m := OpcodeMap.mem_of_lookup (OpcodeMap.lookup_byteOf hm o)
  exact congrArg Prod.fst (List.inj_on_of_nodup_map hn (OpcodeMap.mem_of_lookup h) hb rfl)

/-- A byte has no operation exactly where it has no row. -/
theorem OpcodeMap.lookup_eq_none_iff : m.lookup op = none ↔ op ∉ m.map Prod.fst := by
  induction m with
  | nil => simp [OpcodeMap.lookup]
  | cons r m ih =>
    by_cases h : op = r.1
    · simp [OpcodeMap.lookup, h]
    · simp [OpcodeMap.lookup, h, ih]

/-- A byte is refused by name exactly where it has no operation. -/
theorem decodeWith_eq_unknown_iff (rest : List Byte) :
    decodeWith m (op :: rest) = .unknown op ↔ m.lookup op = none := by
  refine ⟨fun h => ?_, fun h => decodeWith_of_lookup_none h rest⟩
  by_contra hne
  obtain ⟨o, ho⟩ := Option.ne_none_iff_exists'.1 hne
  obtain ⟨i, e, -⟩ | ⟨e, -⟩ := decodeWith_of_lookup ho rest
  · cases e.symm.trans h
  · cases e.symm.trans h

/-- Settles O1: the encoding has the instruction's format, and its opcode byte looks its operation up. -/
theorem decodeReadsBackEveryEncoding : Obligations.DecodeReadsBackEveryEncoding := fun m i rest hm =>
  Machine.hasFormat_operandBytes i m (m.byteOf i.op) rest (OpcodeMap.lookup_byteOf hm i.op)

/-- Settles O2: the bytes after the opcode byte, which is the operation's, begin with the operand bytes read. -/
theorem decodedBytesBeginWithTheEncoding : Obligations.DecodedBytesBeginWithTheEncoding := by
  intro m i bytes hm h
  obtain ⟨op, h0, ho, hk⟩ := decodeFrom_eq_ok_iff.1 h
  cases bytes with
  | nil => cases h0
  | cons b operands =>
    obtain rfl : b = op := Option.some.inj h0
    have hp : i.operandBytes <+: operands := List.prefix_iff_getElem?.2 fun k hlt => by
      rw [← List.getElem?_eq_getElem hlt, ← hk k hlt, List.getElem?_cons_succ]
    obtain ⟨rest, rfl⟩ := hp
    exact ⟨rest, by rw [encodeWith, ← OpcodeMap.eq_byteOf_of_lookup hm ho, List.cons_append]⟩

/-- Settles O3, by decoding each of the fourteen words. -/
theorem wordsOfTheOpcodeTableDecode : Obligations.WordsOfTheOpcodeTableDecode := by
  unfold Obligations.WordsOfTheOpcodeTableDecode
  decide

/-- Settles O4: the fourteen bytes are those of the default map's rows. -/
theorem unmappedOpcodesAreRefusedByName : Obligations.UnmappedOpcodesAreRefusedByName :=
  ⟨fun _ rest => (decodeWith_eq_unknown_iff rest).trans OpcodeMap.lookup_eq_none_iff, by decide +kernel⟩

end Sys2Proof
end

section
/-!
SUPPORT. The step of a Running state by what stands at pc (40_dispatch.md R101 to R106): an instruction, an unmapped
byte, or an address past the memory; and the ends of a run (R107, R109).
-/

namespace Sys2Proof.Machine

variable {s t u : State}

/-- Bytes in memory from pc on that decode to an instruction are what the fetch decodes. -/
theorem fetch_of_decode {i : Instr} {bytes : List Byte} (hd : decode bytes = .ok i)
    (hm : ∀ k, k < i.length → s.memRead (s.pc + k) = bytes[k]?) : fetch s = .ok i := by
  obtain ⟨op, h0, ho, hk⟩ := decodeFrom_eq_ok_iff.1 hd
  have hl := i.length_eq
  refine decodeFrom_eq_ok_iff.2 ⟨op, ?_, ho, fun k hlt => ?_⟩
  · exact (hm 0 (by omega)).trans h0
  · exact (hm (k + 1) (by omega)).trans (hk k hlt)

/-- An unmapped byte at pc is what the fetch answers. -/
theorem fetch_of_lookup_none {op : Byte} (h0 : s.memRead s.pc = some op) (ho : opcodeMap.lookup op = none) :
    fetch s = .unknown op := by
  simp [fetch, decodeFrom, h0, ho]

/-- Settles O6: the fetch decodes the bytes at pc. -/
theorem stepRunsTheDecodedInstruction : Obligations.StepRunsTheDecodedInstruction := by
  intro s i bytes hr hd hm
  rw [step_running hr, fetch_of_decode hd hm]

/-- Settles O7: byte 0 of the instruction is missing. -/
theorem opcodeFetchPastMemoryFaults : Obligations.OpcodeFetchPastMemoryFaults := fun _ => step_of_le_pc

/-- Settles O9: the fetch answers the unmapped byte, and the step is its recovery. -/
theorem unknownInstructionAdvancesByOne : Obligations.UnknownInstructionAdvancesByOne := by
  intro s op hr h0 ho
  rw [step_running hr, fetch_of_lookup_none h0 ho]
  rfl

/-- An instruction whose bytes lie in memory is fetched, with the operand bytes that stand after its opcode byte. -/
theorem fetch_of_fits {o : Op} (ho : opcodeAtPc o s) (hfit : s.pc + o.length ≤ 256) :
    ∃ i, fetch s = .ok i ∧ i.op = o ∧
      ∀ k, k < i.operandBytes.length → s.memRead (s.pc + (k + 1)) = i.operandBytes[k]? := by
  obtain ⟨op, h0, hl⟩ := ho
  obtain ⟨i, e, hi, -⟩ | ⟨k, -, hlt, hk, -⟩ :=
    decodeFrom_of_lookup (read := fun k => s.memRead (s.pc + k)) h0 hl
  · obtain ⟨_, -, -, hk⟩ := decodeFrom_eq_ok_iff.1 e
    exact ⟨i, e, hi, hk⟩
  · have := State.le_of_memRead hk
    omega

/-- The byte at the pc of a Running state is the opcode that its step takes (20_memory.md R63). -/
theorem stepTakesOpcode {v : Byte} (hr : t.run = .running) (h0 : t.memRead t.pc = some v) : StepTakesOpcode t v := by
  refine ⟨h0, unknownInstructionAdvancesByOne t v hr h0, fun o ho => ⟨fun hfit => ?_, fun hpast => ?_⟩⟩
  · obtain ⟨i, hf, rfl, hk⟩ := fetch_of_fits ⟨v, h0, ho⟩ hfit
    have hl : i.op.length = i.operandBytes.length + 1 := i.length_eq
    refine ⟨i, rfl, fun k hlt => ?_, by rw [step_running hr, hf]⟩
    rw [Nat.add_assoc, Nat.add_comm 1 k, hk k (by omega)]
  · have hpc := State.lt_of_memRead h0
    obtain ⟨k, hk⟩ : ∃ k, t.pc + k = 256 := ⟨256 - t.pc, by omega⟩
    rw [operandFetchFaults o t k hr ⟨v, h0, ho⟩ (by omega) (by omega) hk, hk]

/-! The ends of a run. -/

/-- The first step of a run leads to the rest of it. -/
theorem stepN_succ_of_step (h : step s = .next t) (n : Nat) : stepN (n + 1) s = stepN n t := by
  rw [stepN, h]

/-- A run of a step or more begins with a step. -/
theorem step_of_stepN_succ {n : Nat} (h : stepN (n + 1) s = .next u) : ∃ t, step s = .next t ∧ stepN n t = .next u := by
  rw [stepN] at h
  split at h
  · next t ht => exact ⟨t, ht, h⟩
  · cases h
  · cases h

/-- A state is Running or the end of its run. -/
theorem running_or_ended (s : State) : s.run = .running ∨ EndsHalted s ∨ EndsFaulted s := by
  match hr : s.run with
  | .running => exact .inl rfl
  | .halted => exact .inr (.inl ⟨0, s, rfl, hr⟩)
  | .faulted r => exact .inr (.inr ⟨0, s, r, rfl, hr⟩)

/-- A run is Running after any number of steps, or has ended. -/
theorem running_or_ends (n : Nat) (s : State) :
    (∃ t, stepN n s = .next t ∧ t.run = .running) ∨ EndsHalted s ∨ EndsFaulted s := by
  induction n generalizing s with
  | zero => exact (running_or_ended s).imp_left fun hr => ⟨s, rfl, hr⟩
  | succ n ih =>
    obtain hr | h := running_or_ended s
    · obtain ⟨t, ht⟩ := step_next hr
      rw [stepN_succ_of_step ht]
      obtain h | ⟨k, u, hu, e⟩ | ⟨k, u, r, hu, e⟩ := ih t
      · exact .inl h
      · exact .inr (.inl ⟨k + 1, u, (stepN_succ_of_step ht k).trans hu, e⟩)
      · exact .inr (.inr ⟨k + 1, u, r, (stepN_succ_of_step ht k).trans hu, e⟩)
    · exact .inr h

/-- A run has one end: there is no step from a state that is not Running (40_dispatch.md R100). -/
theorem stepN_end_unique {n m : Nat} (ht : stepN n s = .next t) (hu : stepN m s = .next u) (htr : t.run ≠ .running)
    (hur : u.run ≠ .running) : t = u := by
  induction n generalizing s m with
  | zero =>
    cases ht
    cases m with
    | zero => cases hu; rfl
    | succ m =>
      obtain ⟨_, hs, -⟩ := step_of_stepN_succ hu
      exact absurd (step_cases hs).1 htr
  | succ n ih =>
    obtain ⟨s', hs, ht⟩ := step_of_stepN_succ ht
    cases m with
    | zero => cases hu; exact absurd (step_cases hs).1 hur
    | succ m => exact ih ht ((stepN_succ_of_step hs m).symm.trans hu)

/-- A run that never ends has no end: after as many steps it is Running. -/
theorem RunsForever.run_eq {n : Nat} (h : RunsForever s) (ht : stepN n s = .next t) : t.run = .running := by
  obtain ⟨u, hu, hr⟩ := h n
  exact Host.Outcome.next.inj (hu.symm.trans ht) ▸ hr

/-- Settles O49: a run that never reaches an end is Running at every number of steps, and an end is reached once. -/
theorem everyRunHaltsFaultsOrNeverEnds : Obligations.EveryRunHaltsFaultsOrNeverEnds := by
  refine fun s => ⟨?_, ?_, ?_, ?_⟩
  · by_cases hh : EndsHalted s
    · exact .inl hh
    by_cases hf : EndsFaulted s
    · exact .inr (.inl hf)
    · exact .inr (.inr fun n => (running_or_ends n s).resolve_right (not_or.2 ⟨hh, hf⟩))
  · rintro ⟨⟨n, t, ht, hh⟩, ⟨m, u, r, hu, hf⟩⟩
    obtain rfl : t = u := stepN_end_unique ht hu (by simp [hh]) (by simp [hf])
    cases hh.symm.trans hf
  · rintro ⟨⟨n, t, ht, hh⟩, hr⟩
    cases hh.symm.trans (hr.run_eq ht)
  · rintro ⟨⟨n, t, r, ht, hf⟩, hr⟩
    cases hf.symm.trans (hr.run_eq ht)

end Sys2Proof.Machine
end

section
/-!
SUPPORT. What an instruction and a step leave behind: a fault that differs in the run state alone and that only the
operand bytes and the pc decide (60_exceptions.md R214), or the effect, field by field.
-/

namespace Sys2Proof.Machine

variable {i : Instr} {s t : State}

/-! The register operands. -/

/-- One register check raises the operand that is found to be 8 or more. -/
theorem withReg_of_find? {rA b : Byte} (h : [rA].find? (fun x => decide (8 ≤ x.toNat)) = some b) (s : State)
    (go : Reg → Result) : withReg rA s go = .next (s.faultedWith (.register b.toNat)) := by
  obtain rfl : rA = b := List.mem_singleton.1 (List.mem_of_find?_eq_some h) |>.symm
  rw [withReg_of_le (by simpa using List.find?_some h), raise_register]

/-- Two register checks raise the first operand that is found to be 8 or more. -/
theorem withRegs_of_find? {rA rB b : Byte} (h : [rA, rB].find? (fun x => decide (8 ≤ x.toNat)) = some b) (s : State)
    (go : Reg → Reg → Result) : withRegs rA rB s go = .next (s.faultedWith (.register b.toNat)) := by
  rcases Nat.lt_or_ge rA.toNat 8 with ha | ha
  · rw [withRegs, withReg_of_lt ha]
    exact withReg_of_find? (by rwa [List.find?_cons_of_neg (by simp [ha])] at h) s _
  · obtain rfl : rA = b := by simpa [ha] using h
    rw [withRegs_of_le_left ha, raise_register]

/-- Settles O12: every instruction with a register operand begins with the check of its operands, rA first. -/
theorem firstBadRegisterOperandIsRaised : Obligations.FirstBadRegisterOperandIsRaised := by
  intro i s b h
  cases i with
  | hlt | ret => cases h
  | push a | pop a | prn a | call a | jmp a | ldi a imm => rw [exec]; exact withReg_of_find? h s _
  | jeq a | jne a => simp only [exec, execJeq, execJne]; exact withReg_of_find? h s _
  | st a b | add a b | mul a b | cmp a b =>
    simp only [exec, execSt, execAdd, execMul, execCmp]; exact withRegs_of_find? h s _

/-! The two ways of an instruction. -/

/-- What an effect writes out is what the instruction answers. -/
theorem exec_of_effect (h : Effect i s t) : exec i s = .next t := by
  cases i with
  | hlt | ret => cases h; rfl
  | push a => obtain ⟨ha, rfl⟩ := h; exact execPush_of_lt ha s
  | pop a => obtain ⟨ha, rfl⟩ := h; exact execPop_of_lt ha s
  | prn a => obtain ⟨ha, rfl⟩ := h; exact execPrn_of_lt ha s
  | call a => obtain ⟨ha, hp, rfl⟩ := h; exact execCall_of_lt ha hp
  | jmp a => obtain ⟨ha, rfl⟩ := h; exact execJmp_of_lt ha s
  | jeq a => obtain ⟨ha, rfl⟩ := h; exact branch_of_lt ha s.flags.e s
  | jne a => obtain ⟨ha, rfl⟩ := h; exact (branch_of_lt ha (!s.flags.e) s).trans (by cases s.flags.e <;> rfl)
  | ldi a imm => obtain ⟨ha, rfl⟩ := h; exact execLdi_of_lt ha imm s
  | st a b => obtain ⟨ha, hb, rfl⟩ := h; exact storeInstr_of_lt ha hb stPcAdvance s
  | add a b => obtain ⟨ha, hb, rfl⟩ := h; exact execAdd_of_lt ha hb s
  | mul a b => obtain ⟨ha, hb, rfl⟩ := h; exact execMul_of_lt ha hb s
  | cmp a b => obtain ⟨ha, hb, rfl⟩ := h; exact execCmp_of_lt ha hb s

/-- An instruction has its effect, or raises IndexOutOfBounds with an index out of range; it raises the same in every
state with the same pc, since it checks its operand bytes and its return address and nothing else. -/
theorem exec_effect_or_fault (h : exec i s = .next t) :
    Effect i s t ∨ ∃ info, FaultRecord.wf ⟨.indexOutOfBounds, s.pc, info⟩ = true ∧ t = s.faultedWith info ∧
      ∀ s' : State, s'.pc = s.pc → exec i s' = .next (s'.faultedWith info) := by
  obtain ⟨c, hc, h8, -⟩ | ⟨⟨a, rfl⟩, hp, rfl⟩ | he := exec_cases h
  · obtain ⟨b, hb⟩ : ∃ b, i.registerOperands.find? (fun x => decide (8 ≤ x.toNat)) = some b :=
      Option.isSome_iff_exists.1 (List.find?_isSome.2 ⟨c, hc, by simpa using h8⟩)
    have raises (s' : State) := firstBadRegisterOperandIsRaised i s' b hb
    have hb8 : 8 ≤ b.toNat := by simpa using List.find?_some hb
    exact .inr ⟨.register b.toNat, by simp [FaultRecord.wf, hb8, b.isLt],
      Host.Outcome.next.inj (h.symm.trans (raises s)), fun s' _ => raises s'⟩
  · refine .inr ⟨.memory (s.pc + 2), by simpa [FaultRecord.wf, Config.memSize] using hp, rfl, fun s' hs' => ?_⟩
    rcases Nat.lt_or_ge a.toNat 8 with ha | ha
    · exact (execCall_of_le ha (hs' ▸ hp)).trans (by rw [hs', raise_memory])
    · rw [exec, execCall, withReg_of_le ha, raise_register] at h
      cases h
  · exact .inl he

end Sys2Proof.Machine
end

section
/-!
SUPPORT. What an effect leaves behind, field by field, the outcomes of a step, and the claims over every step that rest
on them: the faults (60_exceptions.md R212, R214), the invariant (10_state.md R27, R31, R32), the frame of the events
and the run state (R36) and the moves of pc (R28).
-/

namespace Sys2Proof.Machine

variable {i : Instr} {s t : State}

/-! The fields after an effect. -/

/-- No effect reports an unknown instruction; HLT halts, and every other effect leaves the run state (10_state.md R30,
R36). -/
theorem Effect.diag_run_eq (h : Effect i s t) : t.diag = s.diag ∧ t.run = if i = .hlt then .halted else s.run := by
  cases i with
  | hlt | ret => cases h; exact ⟨rfl, rfl⟩
  | push a | pop a | prn a | jmp a | ldi a imm => obtain ⟨_, rfl⟩ := h; exact ⟨rfl, rfl⟩
  | call a | st a b | add a b | mul a b | cmp a b => obtain ⟨_, _, rfl⟩ := h; exact ⟨rfl, rfl⟩
  | jeq a | jne a => obtain ⟨_, rfl⟩ := h; split <;> exact ⟨rfl, rfl⟩

theorem Effect.diag_eq (h : Effect i s t) : t.diag = s.diag := h.diag_run_eq.1

theorem Effect.run_eq (h : Effect i s t) : t.run = if i = .hlt then .halted else s.run := h.diag_run_eq.2

/-- The effect of an instruction other than PRN prints nothing (10_state.md R36). -/
theorem Effect.out_eq (h : Effect i s t) (hi : ∀ rA, i ≠ .prn rA) : t.out = s.out := by
  cases i with
  | hlt | ret => cases h; rfl
  | push a | pop a | jmp a | ldi a imm => obtain ⟨_, rfl⟩ := h; rfl
  | call a | st a b | add a b | mul a b | cmp a b => obtain ⟨_, _, rfl⟩ := h; rfl
  | jeq a | jne a => obtain ⟨_, rfl⟩ := h; split <;> rfl
  | prn a => exact absurd rfl (hi a)

/-- Memory after an effect is as before, or one byte has been stored at a byte address. -/
theorem Effect.mem_cases (h : Effect i s t) : t.mem = s.mem ∨ ∃ a v : Byte, t.mem = s.mem.set a.toNat v := by
  cases i with
  | hlt | ret => cases h; exact .inl rfl
  | pop a | prn a | jmp a | ldi a imm => obtain ⟨_, rfl⟩ := h; exact .inl rfl
  | add a b | mul a b | cmp a b => obtain ⟨_, _, rfl⟩ := h; exact .inl rfl
  | jeq a | jne a => obtain ⟨_, rfl⟩ := h; split <;> exact .inl rfl
  | push a => obtain ⟨_, rfl⟩ := h; exact .inr ⟨_, _, rfl⟩
  | st a b => obtain ⟨_, _, rfl⟩ := h; exact .inr ⟨_, _, rfl⟩
  | call a => obtain ⟨_, _, rfl⟩ := h; exact .inr ⟨_, _, State.push_mem _ _⟩

/-- An effect moves pc past the instruction or to a byte value, and HLT leaves it (10_state.md R28). -/
theorem Effect.pc_le (h : Effect i s t) (hl : s.pc + i.length ≤ 256) : t.pc ≤ 256 := by
  cases i with
  | hlt => cases h; exact (Nat.le_add_right _ _).trans hl
  | ret => cases h; exact (BitVec.isLt _).le
  | push a | pop a | prn a | ldi a imm => obtain ⟨_, rfl⟩ := h; exact hl
  | st a b | add a b | mul a b | cmp a b => obtain ⟨_, _, rfl⟩ := h; exact hl
  | jmp a => obtain ⟨_, rfl⟩ := h; exact (BitVec.isLt _).le
  | call a => obtain ⟨_, _, rfl⟩ := h; exact (BitVec.isLt _).le
  | jeq a =>
    obtain ⟨_, rfl⟩ := h
    split
    · exact (BitVec.isLt _).le
    · exact hl
  | jne a =>
    obtain ⟨_, rfl⟩ := h
    split
    · exact hl
    · exact (BitVec.isLt _).le

/-- The flags after an effect are those before it, or the comparison of two bytes. -/
theorem Effect.flags_cases (h : Effect i s t) : t.flags = s.flags ∨ ∃ a b, t.flags = compareBytes a b := by
  by_cases hi : ∃ rA rB, i = .cmp rA rB
  · obtain ⟨rA, rB, rfl⟩ := hi
    obtain ⟨_, _, rfl⟩ := h
    exact .inr ⟨_, _, rfl⟩
  · exact .inl (h.flags_eq fun rA rB e => hi ⟨rA, rB, e⟩)

/-- A comparison leaves the flags mutually exclusive. -/
theorem compareBytes_exclusive (a b : Byte) : (compareBytes a b).exclusive := by
  obtain e | e | e := compareBytes_one_true a b <;> rw [e] <;> decide

/-! The outcomes of a step. -/

/-- All that a step can be: a fault with an index out of range, the effect of the fetched instruction, or the recovery
from an unmapped byte. -/
theorem step_outcomes (h : step s = .next t) :
    s.run = .running ∧
      ((∃ info, FaultRecord.wf ⟨.indexOutOfBounds, s.pc, info⟩ = true ∧ t = s.faultedWith info) ∨
        (∃ i, fetch s = .ok i ∧ Effect i s t) ∨
        (∃ op, fetch s = .unknown op ∧ t = (s.emitUnknown op).advance 1)) := by
  obtain ⟨hr, ⟨i, hf, he⟩ | hu | ⟨k, hf, rfl⟩⟩ := step_cases h
  · obtain hi | ⟨info, hw, ht, -⟩ := exec_effect_or_fault he
    · exact ⟨hr, .inr (.inl ⟨i, hf, hi⟩)⟩
    · exact ⟨hr, .inl ⟨info, hw, ht⟩⟩
  · exact ⟨hr, .inr (.inr hu)⟩
  · exact ⟨hr, .inl ⟨.memory (s.pc + k), decide_eq_true (fetch_missing hf), rfl⟩⟩

/-- An effect leaves a Running state Running or Halted. -/
theorem Effect.run_ne_faulted (h : Effect i s t) (hr : s.run = .running) (r : FaultRecord) : t.run ≠ .faulted r := by
  rw [h.run_eq, hr]
  split <;> simp

/-- Settles O11: of the outcomes of a step only the fault ends in Faulted. -/
theorem faultingStepChangesOnlyTheRunState : Obligations.FaultingStepChangesOnlyTheRunState := by
  intro s t r h ht
  obtain ⟨hr, ⟨info, hw, rfl⟩ | ⟨i, -, he⟩ | ⟨op, -, rfl⟩⟩ := step_outcomes h
  · cases ht
    exact ⟨rfl, rfl, hw⟩
  · exact absurd ht (he.run_ne_faulted hr r)
  · cases hr.symm.trans ht

/-- Settles O13: the ALU answers the identifier, which is raised; a record that the core can hold has the other cause.
-/
theorem unsupportedOperationIsUnreachable : Obligations.UnsupportedOperationIsUnreachable := by
  refine ⟨fun s opid rA rB ha hb => ?_, fun s t r h ht hc => ?_⟩
  · rw [aluInstr, withRegs_of_lt ha hb]
    exact raise_eq (.aluOp opid) s
  · obtain ⟨-, -, hw⟩ := faultingStepChangesOnlyTheRunState s t r h ht
    simp [FaultRecord.wf, hc] at hw

/-- Settles O14: the empty memory is in the canonical form, and every other clause is of the reset values. -/
theorem resetMeetsTheInvariant : Obligations.ResetMeetsTheInvariant :=
  ⟨Memory.wf_nil, by decide, by decide, rfl, fun _ hd => absurd hd List.not_mem_nil⟩

/-- The effect of an instruction that lies in memory keeps the invariant. -/
theorem Effect.inv (h : Effect i s t) (hs : s.Inv) (hr : s.run = .running) (hl : s.pc + i.length ≤ 256) : t.Inv := by
  obtain ⟨hmem, -, hflags, -, hdiag⟩ := hs
  refine ⟨?_, h.pc_le hl, ?_, ?_, h.diag_eq ▸ hdiag⟩
  · obtain e | ⟨a, v, e⟩ := h.mem_cases
    · exact e ▸ hmem
    · exact e ▸ Memory.wf_set_byte hmem a v
  · obtain e | ⟨a, b, e⟩ := h.flags_cases
    · exact e ▸ hflags
    · exact e ▸ compareBytes_exclusive a b
  · rw [h.run_eq, hr]
    split <;> rfl

/-- Settles O48, by the outcomes of the step: a fault keeps all but the run state, whose record agrees with the pc; an
effect keeps each clause; a recovery reports an unmapped byte below 256. -/
theorem stepKeepsTheInvariant : Obligations.StepKeepsTheInvariant := by
  intro s t hs h
  obtain ⟨hr, ⟨info, hw, rfl⟩ | ⟨i, hf, he⟩ | ⟨op, hf, rfl⟩⟩ := step_outcomes h
  · obtain ⟨hmem, hpc, hflags, -, hdiag⟩ := hs
    exact ⟨hmem, hpc, hflags, by simp [State.faultedWith, RunState.wf, hw], hdiag⟩
  · exact he.inv hs hr (fetch_ok hf).1
  · obtain ⟨hmem, -, hflags, hrun, hdiag⟩ := hs
    obtain ⟨hpc, -, ho⟩ := fetch_unknown hf
    refine ⟨hmem, hpc, hflags, by simp [hr, RunState.wf], fun d hd => ?_⟩
    obtain hd | hd := List.mem_append.1 hd
    · exact hdiag d hd
    · obtain rfl := List.mem_singleton.1 hd
      exact ⟨hpc, ho⟩

/-- Settles O37: a fault and every effect but PRN's print nothing, the recovery alone reports, and HLT's effect alone
halts. -/
theorem eventsAndRunStateFrame : Obligations.EventsAndRunStateFrame := by
  intro s t h
  have ho := step_outcomes h
  have running := step_running ho.1
  refine ⟨fun hf => ?_, fun rA hf hr => ?_, fun hf => ?_, fun op hf => ?_, fun ht => ?_, fun hf => ?_⟩
  · obtain ⟨-, ⟨info, -, rfl⟩ | ⟨i, hi, he⟩ | ⟨op, -, rfl⟩⟩ := ho
    · rfl
    · exact he.out_eq fun rA e => hf rA (e ▸ hi)
    · rfl
  · obtain ⟨-, ⟨info, -, rfl⟩ | ⟨i, hi, he⟩ | ⟨op, hu, -⟩⟩ := ho
    · cases hr
    · obtain rfl : i = .prn rA := Decoded.ok.inj (hi.symm.trans hf)
      obtain ⟨_, rfl⟩ := he
      exact ⟨_, rfl⟩
    · cases hu.symm.trans hf
  · obtain ⟨-, ⟨info, -, rfl⟩ | ⟨i, -, he⟩ | ⟨op, hu, -⟩⟩ := ho
    · rfl
    · exact he.diag_eq
    · exact absurd hu (hf op)
  · rw [h, hf] at running
    cases running
    rfl
  · obtain ⟨hr, ⟨info, -, rfl⟩ | ⟨i, hi, he⟩ | ⟨op, -, rfl⟩⟩ := ho
    · cases ht
    · rw [he.run_eq, hr] at ht
      split at ht
      · next e => exact e ▸ hi
      · cases ht
    · cases hr.symm.trans ht
  · rw [h, hf] at running
    cases running
    rfl

/-- Settles O38: a fault leaves the pc, and every effect writes its new value out. -/
theorem pcMovesAsTheTableSays : Obligations.PcMovesAsTheTableSays := by
  intro i s t hr h
  obtain he | ⟨info, -, rfl, -⟩ := exec_effect_or_fault h
  · refine ⟨fun ⟨r, ht⟩ => absurd ht (he.run_ne_faulted hr r), fun _ => ?_⟩
    cases i with
    | hlt => cases he; rfl
    | ret => cases he; exact ⟨_, s.memRead_toNat s.sp, rfl⟩
    | push a | pop a | prn a | ldi a imm => obtain ⟨_, rfl⟩ := he; rfl
    | st a b | add a b | mul a b | cmp a b => obtain ⟨_, _, rfl⟩ := he; rfl
    | jmp a => obtain ⟨ha, rfl⟩ := he; exact ⟨ha, rfl⟩
    | call a => obtain ⟨ha, -, rfl⟩ := he; exact ⟨ha, rfl⟩
    | jeq a | jne a => obtain ⟨ha, rfl⟩ := he; exact ⟨ha, apply_ite State.pc _ _ _⟩
  · exact ⟨fun _ => rfl, fun hn => absurd rfl (hn _)⟩

end Sys2Proof.Machine
end

section
/-!
SUPPORT. What an instruction reads and writes (10_state.md R25, R34, 20_memory.md R51): states that differ where an
instruction does not read take effects that differ there alone. A fault it would raise, it raises in both.
-/

namespace Sys2Proof.Machine

variable {i : Instr} {s t : State} {r : Reg}

/-! The flags L and G. -/

/-- The effect of an instruction reads no flag but E (10_state.md R34). -/
theorem Effect.of_flags (h : Effect i s t) (l g : Bool) :
    ∃ l' g', Effect i { s with flags := ⟨s.flags.e, l, g⟩ } { t with flags := ⟨t.flags.e, l', g'⟩ } := by
  cases i with
  | hlt | ret => cases h; exact ⟨l, g, rfl⟩
  | push a | pop a | prn a | jmp a | ldi a imm => obtain ⟨ha, rfl⟩ := h; exact ⟨l, g, ha, rfl⟩
  | call a | st a b | add a b | mul a b => obtain ⟨ha, hb, rfl⟩ := h; exact ⟨l, g, ha, hb, rfl⟩
  | jeq a | jne a => obtain ⟨ha, rfl⟩ := h; exact ⟨l, g, ha, by dsimp only; split <;> rfl⟩
  | cmp a b => obtain ⟨ha, hb, rfl⟩ := h; exact ⟨_, _, ha, hb, rfl⟩

/-- Settles O39: the fetch, the recovery and the faults read no flag, and an effect reads E alone. -/
theorem lessAndGreaterAreNeverRead : Obligations.LessAndGreaterAreNeverRead := by
  intro s t l g h
  obtain ⟨hr, ho⟩ := step_cases h
  rw [step_running (s := { s with flags := ⟨s.flags.e, l, g⟩ }) hr,
    show fetch { s with flags := ⟨s.flags.e, l, g⟩ } = fetch s from rfl]
  obtain ⟨i, hf, he⟩ | ⟨op, hf, rfl⟩ | ⟨k, hf, rfl⟩ := ho
  · rw [hf]
    obtain hi | ⟨info, -, rfl, raises⟩ := exec_effect_or_fault he
    · obtain ⟨l', g', hi'⟩ := hi.of_flags l g
      exact ⟨_, exec_of_effect hi', rfl⟩
    · exact ⟨_, raises { s with flags := ⟨s.flags.e, l, g⟩ } rfl, rfl⟩
  · rw [hf]
    exact ⟨_, rfl, rfl⟩
  · rw [hf]
    exact ⟨_, rfl, rfl⟩

/-! The registers. -/

/-- An effect leaves the registers that the table does not give as written (10_state.md R25). -/
theorem Effect.reg_eq (h : Effect i s t) (hw : ¬writesReg i r) : t.reg r = s.reg r := by
  cases i with
  | hlt => cases h; rfl
  | ret => cases h; exact s.pop_reg_ne hw
  | prn a | jmp a => obtain ⟨_, rfl⟩ := h; rfl
  | st a b | cmp a b => obtain ⟨_, _, rfl⟩ := h; rfl
  | jeq a | jne a => obtain ⟨_, rfl⟩ := h; split <;> rfl
  | ldi a imm => obtain ⟨_, rfl⟩ := h; exact State.setReg_reg_ne _ _ (Fin.ne_of_val_ne hw)
  | add a b | mul a b => obtain ⟨_, _, rfl⟩ := h; exact State.setReg_reg_ne _ _ (Fin.ne_of_val_ne hw)
  | push a => obtain ⟨_, rfl⟩ := h; exact State.setReg_reg_ne _ _ hw
  | call a => obtain ⟨_, _, rfl⟩ := h; exact s.push_reg_ne (BitVec.ofNat 8 (s.pc + 2)) hw
  | pop a =>
    obtain ⟨_, rfl⟩ := h
    obtain ⟨ha, hsp⟩ := not_or.1 hw
    exact (State.pop_reg_ne _ hsp).trans (State.setReg_reg_ne _ _ (Fin.ne_of_val_ne ha))

/-- Writes of two registers may be swapped. -/
theorem State.setReg_comm (s : State) {j : Reg} (h : j ≠ r) (v w : Byte) :
    (s.setReg r v).setReg j w = (s.setReg j w).setReg r v := by
  refine State.ext_fields (fun k => ?_) rfl rfl rfl rfl rfl rfl
  simp only [State.setReg_reg]
  split_ifs with hj hr
  · exact absurd (hj.symm.trans hr) h
  all_goals rfl

/-- After a register write, a write to any register differs from the write alone in that register at most. -/
theorem State.setReg_setReg (s : State) (r j : Reg) (v w : Byte) :
    ∃ x, (s.setReg r v).setReg j w = (s.setReg j w).setReg r x := by
  by_cases h : j = r
  · subst h
    refine ⟨w, State.ext_fields (fun k => ?_) rfl rfl rfl rfl rfl rfl⟩
    simp only [State.setReg_reg]
    split_ifs <;> rfl
  · exact ⟨v, s.setReg_comm h v w⟩

/-- A write of a register other than SP leaves SP. -/
theorem State.setReg_sp_ne (s : State) (v : Byte) (h : r ≠ spIndex) : (s.setReg r v).sp = s.sp :=
  State.setReg_reg_ne s v h.symm

theorem State.setReg_setSp (s : State) (v w : Byte) (h : r ≠ spIndex) :
    (s.setReg r v).setSp w = (s.setSp w).setReg r v := s.setReg_comm h.symm v w

theorem State.setReg_popped (s : State) (v : Byte) (h : r ≠ spIndex) : (s.setReg r v).popped = s.popped := by
  rw [State.popped, State.setReg_sp_ne s v h]; rfl

theorem State.setReg_pop (s : State) (v : Byte) (h : r ≠ spIndex) : (s.setReg r v).pop = s.pop.setReg r v := by
  rw [State.pop, State.setReg_sp_ne s v h, State.setReg_setSp s v _ h, State.pop]

theorem State.setReg_push (s : State) (v w : Byte) (h : r ≠ spIndex) :
    (s.setReg r v).push w = (s.push w).setReg r v := by
  rw [State.push_eq, State.setReg_sp_ne s v h, State.setReg_setSp s v _ h, State.push_eq]
  rfl

/-- The effect of an instruction does not depend on a register that the table does not give as read (10_state.md R25).
-/
theorem Effect.of_setReg (h : Effect i s t) (hr : ¬readsReg i r) (v : Byte) :
    ∃ x, Effect i (s.setReg r v) (t.setReg r x) := by
  have ne {a : Byte} (ha : a.toNat < 8) (hne : ¬r.val = a.toNat) : (⟨a.toNat, ha⟩ : Reg) ≠ r :=
    fun e => hne (congrArg Fin.val e).symm
  cases i with
  | hlt => cases h; exact ⟨v, rfl⟩
  | ret =>
    cases h
    exact ⟨v, by rw [Effect, s.setReg_pop v hr, s.setReg_popped v hr]; rfl⟩
  | prn a | jmp a =>
    obtain ⟨ha, rfl⟩ := h
    exact ⟨v, ha, by rw [State.setReg_reg_ne s v (ne ha hr)]; rfl⟩
  | jeq a | jne a =>
    obtain ⟨ha, rfl⟩ := h
    refine ⟨v, ha, ?_⟩
    rw [State.setReg_reg_ne s v (ne ha hr), State.setReg_flags]
    split <;> rfl
  | ldi a imm =>
    obtain ⟨ha, rfl⟩ := h
    obtain ⟨x, e⟩ := s.setReg_setReg r ⟨a.toNat, ha⟩ v imm
    exact ⟨x, ha, by rw [e]; rfl⟩
  | st a b | cmp a b =>
    obtain ⟨ha, hb, rfl⟩ := h
    obtain ⟨hra, hrb⟩ := not_or.1 hr
    exact ⟨v, ha, hb, by rw [State.setReg_reg_ne s v (ne ha hra), State.setReg_reg_ne s v (ne hb hrb)]; rfl⟩
  | add a b | mul a b =>
    obtain ⟨ha, hb, rfl⟩ := h
    obtain ⟨hra, hrb⟩ := not_or.1 hr
    refine ⟨v, ha, hb, ?_⟩
    rw [State.setReg_reg_ne s v (ne ha hra), State.setReg_reg_ne s v (ne hb hrb), s.setReg_comm (ne ha hra)]
    rfl
  | push a =>
    obtain ⟨ha, rfl⟩ := h
    obtain ⟨hsp, hra⟩ := not_or.1 hr
    refine ⟨v, ha, ?_⟩
    rw [State.setReg_sp_ne s v hsp, State.setReg_setSp s v _ hsp, State.setReg_reg_ne _ v (ne ha hra)]
    rfl
  | call a =>
    obtain ⟨ha, hp, rfl⟩ := h
    obtain ⟨hsp, hra⟩ := not_or.1 hr
    refine ⟨v, ha, hp, ?_⟩
    rw [State.setReg_pc, State.setReg_push s v _ hsp, State.setReg_reg_ne _ v (ne ha hra)]
    rfl
  | pop a =>
    obtain ⟨ha, rfl⟩ := h
    obtain ⟨x, e⟩ := s.setReg_setReg r ⟨a.toNat, ha⟩ v s.popped
    refine ⟨x, ha, ?_⟩
    rw [State.setReg_popped s v hr, e, State.setReg_pop _ x hr]
    rfl

/-- Settles O34: an effect leaves and ignores what the table says, and a fault leaves every register and reads none.
-/
theorem registerAccessTable : Obligations.RegisterAccessTable := by
  intro i s t r h
  obtain he | ⟨info, -, rfl, raises⟩ := exec_effect_or_fault h
  · refine ⟨he.reg_eq, fun hr v => ?_⟩
    obtain ⟨x, he'⟩ := he.of_setReg hr v
    exact ⟨_, exec_of_effect he', by rw [State.setReg_reg_self]⟩
  · exact ⟨fun _ => rfl, fun _ v => ⟨_, raises (s.setReg r v) rfl, by
      rw [show ((s.setReg r v).faultedWith info).reg r = v from State.setReg_reg_self s r v]; rfl⟩⟩

/-! The memory. -/

/-- An effect leaves every byte but the one the instruction stores to (20_memory.md R51). -/
theorem Effect.mem_get_eq {a : Nat} (h : Effect i s t) (hs : ¬storesAt i s a) : t.mem.get a = s.mem.get a := by
  cases i with
  | hlt | ret => cases h; rfl
  | pop b | prn b | jmp b | ldi b imm => obtain ⟨_, rfl⟩ := h; rfl
  | add b c | mul b c | cmp b c => obtain ⟨_, _, rfl⟩ := h; rfl
  | jeq b | jne b => obtain ⟨_, rfl⟩ := h; split <;> rfl
  | push b => obtain ⟨_, rfl⟩ := h; exact Memory.get_set_ne _ _ hs
  | st b c => obtain ⟨hb, _, rfl⟩ := h; exact Memory.get_set_ne _ _ fun e => hs ⟨hb, e⟩
  | call b =>
    obtain ⟨_, _, rfl⟩ := h
    rw [State.setPc_mem, State.push_mem, Memory.get_set_ne _ _ hs]

/-- Memories that read alike but at an address still do after a write of the same byte to both. -/
theorem Memory.get_set_congr {m m' : Memory} {a : Nat} (h : ∀ j, j ≠ a → m'.get j = m.get j) (k : Nat) (v : Byte) :
    ∀ j, j ≠ a → (m'.set k v).get j = (m.set k v).get j := fun j hj => by
  rw [Memory.get_set, Memory.get_set, h j hj]

/-- The effect of an instruction does not depend on a byte that it does not load as data (20_memory.md R51). -/
theorem Effect.of_mem {a : Nat} {m : Memory} (h : Effect i s t) (hl : ¬loadsFrom i s a)
    (hm : ∀ j, j ≠ a → m.get j = s.mem.get j) :
    ∃ m', Effect i { s with mem := m } { t with mem := m' } ∧ ∀ j, j ≠ a → m'.get j = t.mem.get j := by
  have popped (hsp : ¬a = s.sp.toNat) : State.popped { s with mem := m } = s.popped := hm _ (Ne.symm hsp)
  cases i with
  | hlt => cases h; exact ⟨m, rfl, hm⟩
  | prn b | jmp b | ldi b imm => obtain ⟨hb, rfl⟩ := h; exact ⟨m, ⟨hb, rfl⟩, hm⟩
  | add b c | mul b c | cmp b c => obtain ⟨hb, hc, rfl⟩ := h; exact ⟨m, ⟨hb, hc, rfl⟩, hm⟩
  | jeq b | jne b =>
    obtain ⟨hb, rfl⟩ := h
    refine ⟨m, ⟨hb, ?_⟩, ?_⟩
    · dsimp only; split <;> rfl
    · split <;> exact hm
  | ret =>
    cases h
    exact ⟨m, by rw [Effect, popped hl]; rfl, hm⟩
  | pop b =>
    obtain ⟨hb, rfl⟩ := h
    exact ⟨m, ⟨hb, by rw [popped hl]; rfl⟩, hm⟩
  | push b =>
    obtain ⟨hb, rfl⟩ := h
    exact ⟨_, ⟨hb, rfl⟩, Memory.get_set_congr hm _ _⟩
  | st b c =>
    obtain ⟨hb, hc, rfl⟩ := h
    exact ⟨_, ⟨hb, hc, rfl⟩, Memory.get_set_congr hm _ _⟩
  | call b =>
    obtain ⟨hb, hp, rfl⟩ := h
    refine ⟨_, ⟨hb, hp, rfl⟩, ?_⟩
    simp only [State.setPc_mem, State.push_mem]
    exact Memory.get_set_congr hm _ _

/-- Settles O35: an effect leaves and ignores what the table says, and a fault leaves the memory and reads none of it.
-/
theorem memoryAccessTable : Obligations.MemoryAccessTable := by
  intro i s t a h
  have off (v : Byte) (j : Nat) (hj : j ≠ a) : (s.mem.set a v).get j = s.mem.get j := Memory.get_set_ne _ v hj
  obtain he | ⟨info, -, rfl, raises⟩ := exec_effect_or_fault h
  · refine ⟨he.mem_get_eq, fun hl v => ?_⟩
    obtain ⟨m', he', hm'⟩ := he.of_mem hl (off v)
    exact ⟨_, exec_of_effect he', rfl, rfl, rfl, rfl, rfl, rfl, hm'⟩
  · exact ⟨fun _ => rfl, fun _ v => ⟨_, raises { s with mem := s.mem.set a v } rfl,
      rfl, rfl, rfl, rfl, rfl, rfl, off v⟩⟩

end Sys2Proof.Machine
end

section
/-!
SUPPORT. The ALU, the store, the stack, the call and the halt (41_alu.md R120 to R125, 42_load_store_io.md R142,
43_stack.md R163, R164, 44_control.md R182, R187): each instruction on operands that pass, its faults and its format.
-/

namespace Sys2Proof.Machine

variable {i : Instr} {rA rB : Byte}

/-! The faults of the register operands. -/

/-- A first register operand of 8 or more is raised. -/
theorem exec_of_le_left {rest : List Byte} (hi : i.registerOperands = rA :: rest) (ha : 8 ≤ rA.toNat) (s : State) :
    exec i s = .next (s.faultedWith (.register rA.toNat)) :=
  firstBadRegisterOperandIsRaised i s rA (by rw [hi, List.find?_cons_of_pos (by simpa using ha)])

/-- A second register operand of 8 or more is raised where the first passes. -/
theorem exec_of_le_right (hi : i.registerOperands = [rA, rB]) (ha : rA.toNat < 8) (hb : 8 ≤ rB.toNat) (s : State) :
    exec i s = .next (s.faultedWith (.register rB.toNat)) :=
  firstBadRegisterOperandIsRaised i s rB (by
    rw [hi, List.find?_cons_of_neg (by simpa using ha), List.find?_cons_of_pos (by simpa using hb)])

/-! The memory and the ALU. -/

/-- Settles O45: the stored byte is read back, and every other address reads as before. -/
theorem readReturnsTheLastWrite : Obligations.ReadReturnsTheLastWrite := by
  intro s a v j
  split
  · next h => rw [h, State.store_memRead_self]
  · next h => exact s.store_memRead_ne v h

/-- Settles O46: byte arithmetic is modulo 256, and bytes are equal just when their values are. -/
theorem aluIsExactModulo256 : Obligations.AluIsExactModulo256 := fun a b =>
  ⟨⟨a + b, rfl, BitVec.toNat_add a b⟩, ⟨a * b, rfl, BitVec.toNat_mul a b⟩, by
    simp only [alu, compareBytes, BitVec.toNat_eq]⟩

/-- Settles O18: past its checks ADD is a write of the sum and an advance. -/
theorem addAddsModulo256 : Obligations.AddAddsModulo256 := by
  refine ⟨fun s rA rB ha hb => ⟨_, execAdd_of_lt ha hb s, ?_, fun r hr => ?_, rfl, rfl, rfl, rfl, rfl, rfl⟩,
    fun s _ _ ha => exec_of_le_left rfl ha s, fun s _ _ ha hb => exec_of_le_right rfl ha hb s,
    operandFetchFaults .add, fun rA rB => hasFormat_operandBytes (.add rA rB)⟩
  · rw [State.advance_reg, State.setReg_reg_self, BitVec.toNat_add]
  · rw [State.advance_reg, State.setReg_reg_ne _ _ (Fin.ne_of_val_ne hr)]

/-- Settles O19: past its checks MUL is a write of the product and an advance. -/
theorem mulMultipliesModulo256 : Obligations.MulMultipliesModulo256 := by
  refine ⟨fun s rA rB ha hb => ⟨_, execMul_of_lt ha hb s, ?_, fun r hr => ?_, rfl, rfl, rfl, rfl, rfl, rfl⟩,
    fun s _ _ ha => exec_of_le_left rfl ha s, fun s _ _ ha hb => exec_of_le_right rfl ha hb s,
    operandFetchFaults .mul, fun rA rB => hasFormat_operandBytes (.mul rA rB)⟩
  · rw [State.advance_reg, State.setReg_reg_self, BitVec.toNat_mul]
  · rw [State.advance_reg, State.setReg_reg_ne _ _ (Fin.ne_of_val_ne hr)]

/-- Settles O20: past its checks CMP writes the comparison to the flags and advances. -/
theorem compareSetsExactlyOneFlag : Obligations.CompareSetsExactlyOneFlag := by
  refine ⟨fun s _ _ ha hb => ⟨_, execCmp_of_lt ha hb s, decide_eq_true_iff.trans BitVec.toNat_eq,
      decide_eq_true_iff, decide_eq_true_iff, compareBytes_one_true _ _, rfl, fun _ => rfl, rfl, rfl, rfl, rfl⟩,
    fun s _ _ ha => exec_of_le_left rfl ha s, fun s _ _ ha hb => exec_of_le_right rfl ha hb s,
    operandFetchFaults .cmp, fun rA rB => hasFormat_operandBytes (.cmp rA rB)⟩

/-! The store. -/

/-- Settles O22: past its checks ST is a store and an advance. -/
theorem storeWritesOneCell : Obligations.StoreWritesOneCell :=
  ⟨fun s _ _ ha hb => ⟨_, storeInstr_of_lt ha hb stPcAdvance s, s.store_memRead_self _ _,
      fun _ => s.store_memRead_ne _, rfl, fun _ => rfl, rfl, rfl, rfl, rfl⟩,
    fun s _ _ ha => exec_of_le_left rfl ha s, fun s _ _ ha hb => exec_of_le_right rfl ha hb s,
    operandFetchFaults .st, fun rA rB => hasFormat_operandBytes (.st rA rB)⟩

/-- Settles O23: the value of ST_PC_ADVANCE sets the pc alone, and the byte at pc + 2 is not the one stored to. -/
theorem storeAdvanceTwoFetchesTheOperand : Obligations.StoreAdvanceTwoFetchesTheOperand := by
  intro s rA rB ha hb hread hne
  exact ⟨_, _, storeInstr_of_lt ha hb 2 s, storeInstr_of_lt ha hb 3 s, rfl,
    (s.store_memRead_ne _ hne.symm).trans hread⟩

/-! The stack and the call. -/

/-- An operand that passes its check names SP just when it is 7. -/
theorem reg_eq_spIndex_iff (ha : rA.toNat < 8) : (⟨rA.toNat, ha⟩ : Reg) = spIndex ↔ rA.toNat = 7 := Fin.ext_iff

/-- An operand's register after a write of SP: the written byte for operand 7, else what the register held. -/
theorem State.setSp_reg_operand (s : State) (v : Byte) (ha : rA.toNat < 8) :
    (s.setSp v).reg ⟨rA.toNat, ha⟩ = if rA.toNat = 7 then v else s.reg ⟨rA.toNat, ha⟩ := by
  simp only [State.setSp_reg, reg_eq_spIndex_iff]

/-- PUSH past its check: SP decrements, and x[rA], as it is then, is stored there (43_stack.md R163). -/
theorem execPush_eq (ha : rA.toNat < 8) (s : State) :
    execPush rA s = .next ((s.push (if rA.toNat = 7 then s.sp - 1 else s.reg ⟨rA.toNat, ha⟩)).advance 2) := by
  rw [execPush_of_lt ha, State.setSp_reg_operand, State.push_eq]

/-- CALL past its checks: pc + 2 is pushed, and pc takes x[rA], as it is then (44_control.md R182). -/
theorem execCall_eq (ha : rA.toNat < 8) {s : State} (hp : s.pc + 2 < 256) :
    execCall rA s = .next ((s.push (BitVec.ofNat 8 (s.pc + 2))).setPc
      (if rA.toNat = 7 then s.sp - 1 else s.reg ⟨rA.toNat, ha⟩).toNat) := by
  rw [execCall_of_lt ha hp, State.push_reg, target]
  simp only [reg_eq_spIndex_iff]

/-- A return address that passes CALL's check is the value of the byte pushed (44_control.md R182). -/
theorem toNat_ofNat_of_le {n : Nat} (h : n ≤ 255) : (BitVec.ofNat 8 n).toNat = n := by
  rw [BitVec.toNat_ofNat, Nat.mod_eq_of_lt (by omega)]

/-- Settles O25: past its check PUSH is the push primitive and an advance. -/
theorem pushStoresBelowTheStackPointer : Obligations.PushStoresBelowTheStackPointer := by
  refine ⟨fun s rA ha => ⟨_, execPush_eq ha s, ?_, s.push_memRead_self _, fun _ => s.push_memRead_ne _, rfl,
      fun r hr => ?_, rfl, rfl, rfl, rfl⟩,
    fun s _ ha => exec_of_le_left rfl ha s, operandFetchFaults .push, fun rA => hasFormat_operandBytes (.push rA)⟩
  · rw [State.advance_sp, State.push_sp, toNat_sub_one]
  · rw [State.advance_reg, State.push_reg_ne _ _ hr]

/-- Settles O26: past its check POP writes the byte at SP to x[rA], then SP, as it is then, increments. -/
theorem popLoadsFromTheStackPointer : Obligations.PopLoadsFromTheStackPointer := by
  refine ⟨fun s rA ha => ⟨_, execPop_of_lt ha s, fun h7 => ?_, fun h7 => ⟨s.popped, s.memRead_toNat s.sp, ?_⟩,
      fun r hra hsp => ?_, rfl, rfl, rfl, rfl, rfl, rfl⟩,
    fun s _ ha => exec_of_le_left rfl ha s, operandFetchFaults .pop, fun rA => hasFormat_operandBytes (.pop rA)⟩
  · have hne : (⟨rA.toNat, ha⟩ : Reg) ≠ spIndex := (reg_eq_spIndex_iff ha).not.2 h7
    rw [State.advance_reg, State.pop_reg_ne _ hne, State.setReg_reg_self, State.advance_sp, State.pop_sp,
      State.setReg_sp_ne s _ hne, toNat_add_one]
    exact ⟨s.memRead_toNat s.sp, rfl⟩
  · rw [(reg_eq_spIndex_iff ha).2 h7, State.advance_sp, State.pop_sp, State.setReg_sp, if_pos rfl, toNat_add_one]
  · rw [State.advance_reg, State.pop_reg_ne _ hsp, State.setReg_reg_ne _ _ (Fin.ne_of_val_ne hra)]

/-- Settles O28: past its checks CALL is the push primitive and a write of the pc. -/
theorem callPushesTheReturnAddress : Obligations.CallPushesTheReturnAddress := by
  refine ⟨fun s rA ha hp => ⟨_, execCall_eq ha (Nat.lt_succ_of_le hp), ?_,
      ⟨_, s.push_memRead_self _, toNat_ofNat_of_le hp⟩, fun _ => s.push_memRead_ne _, rfl,
      fun r hr => ?_, rfl, rfl, rfl, rfl⟩,
    fun s _ ha => exec_of_le_left rfl ha s, fun _ _ ha hp => execCall_of_le ha hp, operandFetchFaults .call,
    fun rA => hasFormat_operandBytes (.call rA)⟩
  · rw [State.setPc_sp, State.push_sp, toNat_sub_one]
  · rw [State.setPc_reg, State.push_reg_ne _ _ hr]

/-! The halt and the rendering. -/

/-- Settles O33: HLT writes the run state, and there is no step from Halted. -/
theorem haltEndsTheRun : Obligations.HaltEndsTheRun := by
  refine ⟨fun _ => rfl, fun s t h u hu => ?_, hasFormat_operandBytes .hlt⟩
  cases h
  cases (step_halted rfl).symm.trans hu

/-- Settles O47, by rendering the five bytes. -/
theorem renderedLinesOfTheVectors : Obligations.RenderedLinesOfTheVectors := by
  unfold Obligations.RenderedLinesOfTheVectors
  decide

end Sys2Proof.Machine
end

section
/-!
SUPPORT. Sequences of two instructions (43_stack.md R165, 44_control.md R188, R189): a PUSH and its POP, a CALL and
its RET, a CMP and its branch; and the step after a store where the next instruction is fetched (20_memory.md R63).
-/

namespace Sys2Proof.Machine

/-- A register write of what the register holds changes nothing. -/
theorem State.setReg_reg_eq_self (s : State) (r : Reg) : s.setReg r (s.reg r) = s := by
  refine State.ext_fields (fun j => ?_) rfl rfl rfl rfl rfl rfl
  rw [State.setReg_reg]
  split
  · next h => rw [h]
  · rfl

/-- What a push stored is what the next pop answers. -/
theorem State.push_popped (s : State) (v : Byte) : (s.push v).popped = v := by
  rw [State.popped, State.load, State.push_sp, State.push_mem, Memory.get_set_self]

/-- A pop after a push restores SP, and so every register (43_stack.md R165). -/
theorem State.push_pop_reg (s : State) (v : Byte) (r : Reg) : (s.push v).pop.reg r = s.reg r := by
  rw [State.pop_reg, State.push_sp, BitVec.sub_add_cancel]
  split
  · next h => rw [h, State.sp]
  · next h => exact s.push_reg_ne v h

/-- A POP to the register that holds the popped byte is a pop alone: SP, too, is incremented after that write. -/
theorem execPop_of_popped_eq {rA : Byte} (ha : rA.toNat < 8) {t : State} (h : t.popped = t.reg ⟨rA.toNat, ha⟩) :
    execPop rA t = .next (t.pop.advance 2) := by
  rw [execPop_of_lt ha, h, State.setReg_reg_eq_self]

/-- Settles O41: PUSH leaves in x[rA] the byte it stores, for SP itself too, so POP writes to x[rA] what it holds. -/
theorem pushThenPopRestores : Obligations.PushThenPopRestores := by
  intro s rA ha
  refine ⟨_, _, execPush_eq ha s, execPop_of_popped_eq ha ?_, fun r => ?_, s.push_memRead_self _⟩
  · refine (s.push_popped _).trans ?_
    rw [State.advance_reg, State.push_reg]
    simp only [reg_eq_spIndex_iff]
  · exact s.push_pop_reg (if rA.toNat = 7 then s.sp - 1 else s.reg ⟨rA.toNat, ha⟩) r

/-- Settles O42: RET pops the byte the CALL pushed, which is its pc + 2, and SP is decremented and incremented. -/
theorem returnResumesAfterTheCall : Obligations.ReturnResumesAfterTheCall := by
  intro s rA ha hp
  refine ⟨_, execCall_eq ha (Nat.lt_succ_of_le hp), fun u hsp hread => ⟨_, rfl, ?_, ?_⟩⟩
  · rw [State.memRead_toNat, State.memRead_toNat] at hread
    have hpop : u.popped = (s.push (BitVec.ofNat 8 (s.pc + 2))).popped := Option.some.inj hread
    rw [State.setPc_pc, hpop, State.push_popped]
    exact toNat_ofNat_of_le hp
  · rw [State.setPc_sp, State.pop_sp, hsp, State.setPc_sp, State.push_sp, BitVec.sub_add_cancel]

/-- Settles O43: CMP leaves in E whether the registers are equal, and each branch goes by E. -/
theorem branchAfterCompareDecidesEquality : Obligations.BranchAfterCompareDecidesEquality := by
  intro s rA rB rC ha hb hc
  refine ⟨_, execCmp_of_lt ha hb s, (branch_setPc hc _ _).trans ?_, (branch_setPc hc _ _).trans ?_⟩
  · simp [compareBytes]
  · simp [compareBytes]

/-- Settles O44: after the store the byte at the new pc of a Running state is the stored one, and the step takes it.
-/
theorem storedOpcodeRunsInTheNextStep : Obligations.StoredOpcodeRunsInTheNextStep := by
  refine ⟨fun s rA rB ha hb hr hpc => ⟨_, storeInstr_of_lt ha hb stPcAdvance s, rfl, stepTakesOpcode hr ?_⟩,
    fun s rA ha hr hpc => ⟨_, execPush_eq ha s, rfl, stepTakesOpcode hr ?_⟩,
    fun s rA ha hr hp hsp => ⟨_, execCall_eq ha (Nat.lt_succ_of_le hp), congrArg BitVec.toNat hsp,
      stepTakesOpcode hr ?_⟩⟩
  · rw [State.advance_pc, State.store_pc, stPcAdvance, ← hpc]
    exact s.store_memRead_self _ _
  · rw [State.advance_pc, State.push_pc, ← hpc]
    exact s.push_memRead_self _
  · rw [hsp]
    exact s.push_memRead_self _

end Sys2Proof.Machine
end

section
/-!
SUPPORT. The state that a launch begins in (10_state.md R41, 30_encoding.md R96), and the reading of an image's text
from its lines (30_encoding.md R95, R96).
-/

namespace Sys2Proof.Machine

variable {lines : List (List Char × Option Byte)}

/-! The launch. -/

/-- A cell at launch is the image's byte, or INIT_MEM's beyond the image (10_state.md R41). -/
theorem launchMem_get (initMem : Nat → Byte) (image : List Byte) {a : Nat} (ha : a < 256) :
    (launchMem initMem image).get a = image.getD a (initMem a) := by
  rw [launchMem, Memory.get_place _ _ _ _ ha, Memory.get_ofFn, Nat.sub_zero, Nat.zero_add,
    if_pos (show a < Config.memSize from ha)]
  split
  · next h => rw [List.getD_eq_getElem _ _ h.2, List.getD_eq_getElem _ _ h.2]
  · next h => rw [List.getD_eq_default _ _ (by omega)]

/-- The memory at launch is in the canonical form. -/
theorem launchMem_wf (initMem : Nat → Byte) (image : List Byte) : (launchMem initMem image).wf :=
  Memory.wf_place (Memory.wf_ofFn initMem le_rfl) 0 image

/-- Settles O15: a launch is the reset state with the registers and the memory of its parameters. -/
theorem launchStateIsAsTheResetTableSays : Obligations.LaunchStateIsAsTheResetTableSays := by
  intro initRegs initMem image
  refine ⟨fun hlong => ?_, fun hfit => ⟨_, launch_eq_some_iff.2 ⟨hfit, rfl⟩, fun r => ?_, rfl, fun a ha => ?_, rfl, rfl,
    rfl, rfl, rfl, ?_⟩⟩
  · by_contra hne
    obtain ⟨s, hs⟩ := Option.ne_none_iff_exists'.1 hne
    exact absurd (launch_eq_some_iff.1 hs).1 (Nat.not_le.2 hlong)
  · fin_cases r <;> rfl
  · exact (State.memRead_of_lt ha).trans (congrArg some (launchMem_get initMem image ha))
  · obtain ⟨-, hreset⟩ := resetMeetsTheInvariant
    exact ⟨launchMem_wf initMem image, hreset⟩

/-! The text of an image. -/

/-- Lines that hold bytes or nothing are read as those bytes, and the reading goes on after them. -/
theorem parseLines_append (h : ∀ l ∈ lines, LineHolds l.1 l.2) (n : Nat) (rest : List (List Char)) :
    parseLines n (lines.map Prod.fst ++ rest) =
      (parseLines (n + lines.length) rest).map (lines.filterMap Prod.snd ++ ·) := by
  induction lines generalizing n with
  | nil =>
    show parseLines n rest = (parseLines n rest).map id
    cases parseLines n rest <;> rfl
  | cons l lines ih =>
    obtain ⟨hl, hlines⟩ := List.forall_mem_cons.1 h
    obtain ⟨line, v⟩ := l
    have hn : n + 1 + lines.length = n + (lines.length + 1) := by omega
    cases v with
    | none => simp [parseLines, parseLine_of_holds hl, ih hlines, hn]
    | some b =>
      simp only [List.map_cons, List.cons_append, parseLines, parseLine_of_holds hl, Option.elim_some, ih hlines, hn,
        List.length_cons, List.filterMap_cons]
      cases parseLines (n + (lines.length + 1)) rest <;> rfl

/-- A text whose lines hold bytes or nothing gives those bytes, when they fit (30_encoding.md R95, R96). -/
theorem parseImage_of_holds {text : List Char} (hs : splitLines text = lines.map Prod.fst)
    (h : ∀ l ∈ lines, LineHolds l.1 l.2) :
    parseImage (some text) =
      if (lines.filterMap Prod.snd).length ≤ 256 then .ok (lines.filterMap Prod.snd)
      else .error (.tooLong (lines.filterMap Prod.snd).length) := by
  have hp : parseLines 0 (splitLines text) = .ok (lines.filterMap Prod.snd) := by
    simpa [hs, parseLines, Except.map] using parseLines_append h 0 []
  simp only [parseImage, hp, imageFits_iff]

/-- A text is refused for its first line that holds neither bytes nor nothing (30_encoding.md R96). -/
theorem parseImage_of_malformed {text bad : List Char} {after : List (List Char)}
    (hs : splitLines text = lines.map Prod.fst ++ bad :: after) (h : ∀ l ∈ lines, LineHolds l.1 l.2)
    (hbad : ∀ v, ¬LineHolds bad v) : parseImage (some text) = .error (.malformedLine lines.length) := by
  have hm : parseLine bad = .malformed :=
    by_contra fun hne => (holds_of_parseLine hne).elim hbad
  simp [parseImage, hs, parseLines_append h, parseLines, hm, Except.map]

/-- A literal is on one line. -/
theorem newline_not_mem_literal (b : Byte) : '\n' ∉ literal b := fun h =>
  absurd (List.all_eq_true.1 (literal_isBit b) _ h) (by decide)

/-- The lines of an image's plain text are its literals, and an empty one at the end. -/
theorem splitLines_imageText (image : List Byte) : splitLines (imageText image) = image.map literal ++ [[]] := by
  induction image with
  | nil => rfl
  | cons b bs ih =>
    rw [imageText, splitLines_append_newline (newline_not_mem_literal b), ih, List.map_cons, List.cons_append]

/-- The lines of an image's plain text with what each holds. -/
def imageLines (image : List Byte) : List (List Char × Option Byte) :=
  image.map (fun b => (literal b, some b)) ++ [([], none)]

theorem imageLines_fst (image : List Byte) : (imageLines image).map Prod.fst = image.map literal ++ [[]] := by
  simp [imageLines, Function.comp_def]

theorem imageLines_filterMap_snd (image : List Byte) : (imageLines image).filterMap Prod.snd = image := by
  simp [imageLines, List.filterMap_map]

/-- Each line of the plain text holds its byte, and the empty one none. -/
theorem lineHolds_imageLines (image : List Byte) : ∀ l ∈ imageLines image, LineHolds l.1 l.2 := by
  intro l hl
  obtain hl | hl := List.mem_append.1 hl
  · obtain ⟨b, -, rfl⟩ := List.mem_map.1 hl
    exact ⟨[], [], by simp, by simp, by simp⟩
  · obtain rfl := List.mem_singleton.1 hl
    exact ⟨[], [], rfl, by simp, by simp⟩

/-- The plain text of an image is read back, or refused as too long. -/
theorem parseImage_imageText (image : List Byte) :
    parseImage (some (imageText image)) =
      if image.length ≤ 256 then .ok image else .error (.tooLong image.length) := by
  have h := parseImage_of_holds ((splitLines_imageText image).trans (imageLines_fst image).symm)
    (lineHolds_imageLines image)
  rwa [imageLines_filterMap_snd] at h

/-- Settles O17: a text is split into the lines it is made of, and each is read as what it holds; the plain text's
lines are the literals of its image. -/
theorem loaderReadsBackTheImage : Obligations.LoaderReadsBackTheImage := by
  refine ⟨fun lines h => ?_, fun before bad after h hn hbad ha => ?_, rfl, fun image hfit => ?_, fun image hlong => ?_⟩
  · cases lines with
    | nil => rfl
    | cons l ls =>
      refine parseImage_of_holds (splitLines_intercalate (by simp) fun x hx => ?_) fun l hl => (h l hl).2
      obtain ⟨l, hl, rfl⟩ := List.mem_map.1 hx
      exact (h l hl).1
  · refine parseImage_of_malformed (splitLines_intercalate (by simp) fun x hx => ?_) (fun l hl => (h l hl).2) hbad
    obtain hx | hx := List.mem_append.1 hx
    · obtain ⟨l, hl, rfl⟩ := List.mem_map.1 hx
      exact (h l hl).1
    · exact (List.forall_mem_cons (p := ('\n' ∉ ·))).2 ⟨hn, ha⟩ x hx
  · rw [parseImage_imageText, if_pos hfit]
  · rw [parseImage_imageText, if_neg (Nat.not_le.2 hlong)]

end Sys2Proof.Machine
end
